-- ==== Sys2Proof/Word.lean ====
section
/-! DEFINITION. The two fixed widths of the core: the 8-bit datapath (00_scope.md R5, `XLEN`) and the 16-bit
address operand (`ALEN`). All values are unsigned; bit 0 is the least significant bit (R6). -/

namespace Sys2Proof

/-- A general register, a Memory byte, a stack byte, an opcode, an immediate (00_scope.md R5, `XLEN` = 8). -/
abbrev Byte := BitVec 8

/-- A 16-bit address operand (00_scope.md R5, `ALEN` = 16). -/
abbrev Addr := BitVec 16

end Sys2Proof
end

