-- ==== Sys2Proof/Config.lean ====
section
/-! DEFINITION. The implementation parameters of 00_scope.md R5. `PROGRAM_IMAGE`, the only open one, is an argument
of the host functions (Machine/HostPort.lean), not a constant: log 14. There is no free value: the spec settles
every open point of its source (93_implementation_defined.md). -/

namespace Sys2Proof.Config

/-- `MEMSIZE`: Memory is M[0] to M[0xFFFF] (10_state.md R29). Also the end-of-memory value of pc (R23). -/
@[simp] abbrev memSize : Nat := 0x10000

/-- `STACKSIZE`: the stack buffer is Stk[0] to Stk[255] (10_state.md R28). -/
@[simp] abbrev stackSize : Nat := 256

/-- The largest value the controller lets sp reach (20_memory.md R47; 92_eei_decisions.md D17). -/
@[simp] abbrev spMax : Nat := 255

/-- The entry point after reset (70_reset_and_hazards.md R152). -/
@[simp] abbrev resetPc : Nat := 0

/-- What every Memory and stack byte holds at construction (70_reset_and_hazards.md R151): log 9. -/
@[simp] abbrev initByte : Byte := 0

end Sys2Proof.Config
end

