-- ==== Sys2Proof/Syntax.lean ====
section
/-! DEFINITION. The instructions as syntax: one constructor per row of spec/opcode_table.json, with the operand
fields of 30_encoding.md R62. The three NOP rows and RTN carry their opcode byte, since several bytes stand for the
same instruction and a disassembler tells them apart (R76): log 21. -/

namespace Sys2Proof

/-- The general registers A, X, Y, Z, numbered 0 to 3 (10_state.md R20). -/
inductive Reg where
  | a | x | y | z
  deriving DecidableEq, Repr

/-- The condition flags, numbered 0 to 3: zero, negative, carry, overflow (10_state.md R24). -/
inductive CondFlag where
  | z | n | c | v
  deriving DecidableEq, Repr

/-- The index field of a memory mode: 0 is no index, 1 to 3 are X, Y, Z (30_encoding.md R62, R65). -/
inductive Index where
  | none | x | y | z
  deriving DecidableEq, Repr

/-- The mode operand m = op[2:0] with its address operand (30_encoding.md R65): register-direct (m < 4), or memory
at the address (m = 4) plus an index register (m = 5..7). -/
inductive Operand where
  | reg (r : Reg)
  | mem (addr : Addr) (idx : Index)
  deriving DecidableEq, Repr

/-- The four instruction formats (30_encoding.md R62). -/
inductive Format where
  | op | opImm8 | opAddr16 | opMode
  deriving DecidableEq, Repr

/-- The instruction set (30_encoding.md R64). -/
inductive Instr where
  /-- NOP, opcodes 0x00-0x3F (R80). -/
  | nopLow (op : Byte)
  /-- NOP, opcodes 0xA8-0xAF (R80). -/
  | nopGap (op : Byte)
  /-- NOP, opcodes 0xF0-0xFF (R80). -/
  | nopHigh (op : Byte)
  /-- STR r, $a (R82). -/
  | str (r : Reg) (addr : Addr)
  /-- STR.M $a / $a, i (R83). -/
  | strM (addr : Addr) (idx : Index)
  /-- LOD r, $a (R84). -/
  | lod (r : Reg) (addr : Addr)
  /-- LOD.M $a / $a, i (R85). -/
  | lodM (addr : Addr) (idx : Index)
  /-- LOD r, #n (R86). -/
  | lodImm (r : Reg) (imm : Byte)
  /-- PSH r (R90). -/
  | psh (r : Reg)
  /-- PLL r (R91). -/
  | pll (r : Reg)
  /-- JMP $a (R92). -/
  | jmp (addr : Addr)
  /-- CAL $a (R93). -/
  | cal (addr : Addr)
  /-- RTN, opcodes 0x5E and 0x5F (R95). -/
  | rtn (op : Byte)
  /-- TRS d, s (R100). -/
  | trs (dst : Reg) (src : Reg)
  /-- INC mop (R102). -/
  | inc (m : Operand)
  /-- DEC mop (R103). -/
  | dec (m : Operand)
  /-- SHL mop (R104). -/
  | shl (m : Operand)
  /-- SHR mop (R105). -/
  | shr (m : Operand)
  /-- ROL mop (R106). -/
  | rol (m : Operand)
  /-- ROR mop (R107). -/
  | ror (m : Operand)
  /-- NOT mop (R108). -/
  | not (m : Operand)
  /-- BRC f, $a (R110). -/
  | brc (f : CondFlag) (addr : Addr)
  /-- BRN f, $a (R111). -/
  | brn (f : CondFlag) (addr : Addr)
  /-- SET f (R112). -/
  | set (f : CondFlag)
  /-- CLR f (R113). -/
  | clr (f : CondFlag)
  /-- ADD mop (R121). -/
  | add (m : Operand)
  /-- SUB mop (R122). -/
  | sub (m : Operand)
  /-- AND mop (R123). -/
  | and (m : Operand)
  /-- IOR mop (R124). -/
  | ior (m : Operand)
  /-- XOR mop (R125). -/
  | xor (m : Operand)
  /-- CMP mop (R126). -/
  | cmp (m : Operand)
  deriving DecidableEq, Repr

end Sys2Proof
end

