-- ==== Sys2Proof/WellFormed.lean ====
section
/-! DEFINITION. Which terms stand for an instruction of the hardware. Register, flag, index, address and immediate
fields are in range by their types; what is left to check is that the opcode byte kept by the NOP rows and by RTN is
one of that row's opcodes (30_encoding.md R64). -/

namespace Sys2Proof

/-- The term is an instruction of 30_encoding.md R64. -/
def Instr.wellFormed : Instr → Bool
  | .nopLow op => op.toNat < 0x40
  | .nopGap op => 0xA8 ≤ op.toNat && op.toNat < 0xB0
  | .nopHigh op => 0xF0 ≤ op.toNat
  | .rtn op => op == 0x5E || op == 0x5F
  | .str _ _ => true
  | .strM _ _ => true
  | .lod _ _ => true
  | .lodM _ _ => true
  | .lodImm _ _ => true
  | .psh _ => true
  | .pll _ => true
  | .jmp _ => true
  | .cal _ => true
  | .trs _ _ => true
  | .inc _ => true
  | .dec _ => true
  | .shl _ => true
  | .shr _ => true
  | .rol _ => true
  | .ror _ => true
  | .not _ => true
  | .brc _ _ => true
  | .brn _ _ => true
  | .set _ => true
  | .clr _ => true
  | .add _ => true
  | .sub _ => true
  | .and _ => true
  | .ior _ => true
  | .xor _ => true
  | .cmp _ => true

end Sys2Proof
end

