-- ==== Sys2Proof/Decode.lean ====
section
/-! DEFINITION. Fetch-independent decoding of instruction bytes, the opcode table, and the encoder
(30_encoding.md R62 to R72, R75). Decoding is total: it answers an instruction and the bytes after it, or rejects
by name a byte list that ends inside an instruction. No opcode byte is rejected (R71). -/

namespace Sys2Proof

/-! ### Fields of the opcode byte (R62) -/

/-- The register numbered by two bits: 0 A, 1 X, 2 Y, 3 Z (10_state.md R20). -/
def Reg.ofBits (b : BitVec 2) : Reg :=
  if b = 0 then .a else if b = 1 then .x else if b = 2 then .y else .z

def Reg.bits : Reg → BitVec 2
  | .a => 0
  | .x => 1
  | .y => 2
  | .z => 3

/-- The flag numbered by two bits: 0 Z, 1 N, 2 C, 3 V (10_state.md R24). -/
def CondFlag.ofBits (b : BitVec 2) : CondFlag :=
  if b = 0 then .z else if b = 1 then .n else if b = 2 then .c else .v

def CondFlag.bits : CondFlag → BitVec 2
  | .z => 0
  | .n => 1
  | .c => 2
  | .v => 3

/-- The index named by two bits: 0 no index, 1 X, 2 Y, 3 Z (R62, field i). -/
def Index.ofBits (b : BitVec 2) : Index :=
  if b = 0 then .none else if b = 1 then .x else if b = 2 then .y else .z

def Index.bits : Index → BitVec 2
  | .none => 0
  | .x => 1
  | .y => 2
  | .z => 3

/-- op[1:0] (R62, fields reg, f and i). -/
def lowField (op : Byte) : BitVec 2 := op.extractLsb' 0 2

/-- op[3:2], the TRS source selector (R62, field s). -/
def srcField (op : Byte) : BitVec 2 := op.extractLsb' 2 2

/-- op[2], set in the memory modes (R65). -/
def modeBit (op : Byte) : Bool := op.getLsbD 2

/-- The mode operand of `op` whose address operand, if it has one, is `a` (R65). -/
def modeOperand (op : Byte) (a : Addr) : Operand :=
  if modeBit op then .mem a (.ofBits (lowField op)) else .reg (.ofBits (lowField op))

/-- A 16-bit value from its high and its low byte: big-endian, the high byte at the lower address (20_memory.md R44). -/
def joinBytes (hi lo : Byte) : Addr := hi ++ lo

def highByte (a : Addr) : Byte := a.extractLsb' 8 8

def lowByte (a : Addr) : Byte := a.extractLsb' 0 8

/-! ### Length and decode map -/

/-- The length of a format-OP_MODE instruction: 1 when op[2] = 0, else 3 (R62). -/
def modeLength (op : Byte) : Nat := if modeBit op then 3 else 1

/-- The instruction length the opcode byte fixes (R70), by the ranges of R64. -/
def opLength (op : Byte) : Nat :=
  let n := op.toNat
  if n < 0x40 then 1            -- NOP
  else if n < 0x50 then 3       -- STR, STR.M, LOD, LOD.M
  else if n < 0x54 then 2       -- LOD immediate
  else if n < 0x5C then 1       -- PSH, PLL
  else if n < 0x5E then 3       -- JMP, CAL
  else if n < 0x70 then 1       -- RTN, TRS
  else if n < 0xA8 then modeLength op   -- INC .. NOT
  else if n < 0xB0 then 1       -- NOP
  else if n < 0xB8 then 3       -- BRC, BRN
  else if n < 0xC0 then 1       -- SET, CLR
  else if n < 0xF0 then modeLength op   -- ADD .. CMP
  else 1                        -- NOP

/-- The decode map of R64, by numeric range of the opcode, from the opcode byte, its immediate byte and its
16-bit address operand (an instruction that has no such operand ignores it). -/
def decodeOpcode (op imm : Byte) (a : Addr) : Instr :=
  let n := op.toNat
  let r := Reg.ofBits (lowField op)
  let f := CondFlag.ofBits (lowField op)
  let i := Index.ofBits (lowField op)
  let m := modeOperand op a
  if n < 0x40 then .nopLow op
  else if n < 0x44 then .str r a
  else if n < 0x48 then .strM a i
  else if n < 0x4C then .lod r a
  else if n < 0x50 then .lodM a i
  else if n < 0x54 then .lodImm r imm
  else if n < 0x58 then .psh r
  else if n < 0x5C then .pll r
  else if n < 0x5D then .jmp a
  else if n < 0x5E then .cal a
  else if n < 0x60 then .rtn op
  else if n < 0x70 then .trs r (.ofBits (srcField op))
  else if n < 0x78 then .inc m
  else if n < 0x80 then .dec m
  else if n < 0x88 then .shl m
  else if n < 0x90 then .shr m
  else if n < 0x98 then .rol m
  else if n < 0xA0 then .ror m
  else if n < 0xA8 then .not m
  else if n < 0xB0 then .nopGap op
  else if n < 0xB4 then .brc f a
  else if n < 0xB8 then .brn f a
  else if n < 0xBC then .set f
  else if n < 0xC0 then .clr f
  else if n < 0xC8 then .add m
  else if n < 0xD0 then .sub m
  else if n < 0xD8 then .and m
  else if n < 0xE0 then .ior m
  else if n < 0xE8 then .xor m
  else if n < 0xF0 then .cmp m
  else .nopHigh op

/-- Why bytes do not decode: they end before the opcode, or inside the operand of opcode `op`. -/
inductive DecodeReject where
  | noOpcode
  | truncated (op : Byte)
  deriving DecidableEq, Repr

/-- Read one instruction from the front of a byte list: the opcode, its length, then length - 1 operand bytes (R70).
Answers the instruction and the bytes after it. -/
def decode : List Byte → Except DecodeReject (Instr × List Byte)
  | [] => .error .noOpcode
  | op :: rest =>
    match opLength op, rest with
    | 1, rest => .ok (decodeOpcode op 0 0, rest)
    | 2, imm :: rest => .ok (decodeOpcode op imm 0, rest)
    | 3, hi :: lo :: rest => .ok (decodeOpcode op 0 (joinBytes hi lo), rest)
    | _, _ => .error (.truncated op)

/-! ### Encoder (R75) -/

/-- A base opcode plus a two-bit field in op[1:0]. -/
def withField (base : Byte) (b : BitVec 2) : Byte := base + b.setWidth 8

/-- The address operand, high byte first (R62). -/
def addrBytes (a : Addr) : List Byte := [highByte a, lowByte a]

/-- base + m, then the address bytes when m >= 4 (R75, the mode operand rows). -/
def modeBytes (base : Byte) : Operand → List Byte
  | .reg r => [withField base r.bits]
  | .mem a i => withField (base + 4) i.bits :: addrBytes a

/-- The bytes of an instruction, written from the table of R75 (the opcode byte itself where the term keeps it). -/
def encode : Instr → List Byte
  | .nopLow op => [op]
  | .nopGap op => [op]
  | .nopHigh op => [op]
  | .str r a => withField 0x40 r.bits :: addrBytes a
  | .strM a i => withField 0x44 i.bits :: addrBytes a
  | .lod r a => withField 0x48 r.bits :: addrBytes a
  | .lodM a i => withField 0x4C i.bits :: addrBytes a
  | .lodImm r n => [withField 0x50 r.bits, n]
  | .psh r => [withField 0x54 r.bits]
  | .pll r => [withField 0x58 r.bits]
  | .jmp a => 0x5C :: addrBytes a
  | .cal a => 0x5D :: addrBytes a
  | .rtn op => [op]
  | .trs d s => [withField (0x60 + 4 * s.bits.setWidth 8) d.bits]
  | .inc m => modeBytes 0x70 m
  | .dec m => modeBytes 0x78 m
  | .shl m => modeBytes 0x80 m
  | .shr m => modeBytes 0x88 m
  | .rol m => modeBytes 0x90 m
  | .ror m => modeBytes 0x98 m
  | .not m => modeBytes 0xA0 m
  | .brc f a => withField 0xB0 f.bits :: addrBytes a
  | .brn f a => withField 0xB4 f.bits :: addrBytes a
  | .set f => [withField 0xB8 f.bits]
  | .clr f => [withField 0xBC f.bits]
  | .add m => modeBytes 0xC0 m
  | .sub m => modeBytes 0xC8 m
  | .and m => modeBytes 0xD0 m
  | .ior m => modeBytes 0xD8 m
  | .xor m => modeBytes 0xE0 m
  | .cmp m => modeBytes 0xE8 m

/-- The length of a mode operand's instruction (R62, OP_MODE). -/
def Operand.length : Operand → Nat
  | .reg _ => 1
  | .mem _ _ => 3

/-- The length of an instruction in bytes, by the "length" column of R64. -/
def Instr.length : Instr → Nat
  | .nopLow _ => 1
  | .nopGap _ => 1
  | .nopHigh _ => 1
  | .str _ _ => 3
  | .strM _ _ => 3
  | .lod _ _ => 3
  | .lodM _ _ => 3
  | .lodImm _ _ => 2
  | .psh _ => 1
  | .pll _ => 1
  | .jmp _ => 3
  | .cal _ => 3
  | .rtn _ => 1
  | .trs _ _ => 1
  | .inc m => m.length
  | .dec m => m.length
  | .shl m => m.length
  | .shr m => m.length
  | .rol m => m.length
  | .ror m => m.length
  | .not m => m.length
  | .brc _ _ => 3
  | .brn _ _ => 3
  | .set _ => 1
  | .clr _ => 1
  | .add m => m.length
  | .sub m => m.length
  | .and m => m.length
  | .ior m => m.length
  | .xor m => m.length
  | .cmp m => m.length

/-! ### The opcode table, row by row -/

/-- One row of spec/opcode_table.json. -/
structure OpcodeRow where
  mnemonic : String
  format : Format
  fixed : Byte
  mask : Byte
  deriving DecidableEq, Repr

/-- The opcode lies in the row: op AND mask = match. -/
def OpcodeRow.covers (row : OpcodeRow) (op : Byte) : Bool := op &&& row.mask == row.fixed

/-- The length a row gives an opcode (R62). -/
def Format.length (op : Byte) : Format → Nat
  | .op => 1
  | .opImm8 => 2
  | .opAddr16 => 3
  | .opMode => modeLength op

/-- The reserved rows and the core band (opcodes 0x00-0x6F, 0xA8-0xAF, 0xF0-0xFF). -/
def reservedAndCoreRows : List OpcodeRow :=
  [⟨"NOP", .op, 0x00, 0xC0⟩, ⟨"NOP", .op, 0xA8, 0xF8⟩, ⟨"NOP", .op, 0xF0, 0xF0⟩,
   ⟨"STR", .opAddr16, 0x40, 0xFC⟩, ⟨"STR.M", .opMode, 0x44, 0xFC⟩, ⟨"LOD", .opAddr16, 0x48, 0xFC⟩,
   ⟨"LOD.M", .opMode, 0x4C, 0xFC⟩, ⟨"LOD__imm", .opImm8, 0x50, 0xFC⟩, ⟨"PSH", .op, 0x54, 0xFC⟩,
   ⟨"PLL", .op, 0x58, 0xFC⟩, ⟨"JMP", .opAddr16, 0x5C, 0xFF⟩, ⟨"CAL", .opAddr16, 0x5D, 0xFF⟩,
   ⟨"RTN", .op, 0x5E, 0xFE⟩, ⟨"TRS", .op, 0x60, 0xF0⟩]

/-- The unary, flag and binary ALU rows. -/
def aluAndFlagRows : List OpcodeRow :=
  [⟨"INC", .opMode, 0x70, 0xF8⟩, ⟨"DEC", .opMode, 0x78, 0xF8⟩, ⟨"SHL", .opMode, 0x80, 0xF8⟩,
   ⟨"SHR", .opMode, 0x88, 0xF8⟩, ⟨"ROL", .opMode, 0x90, 0xF8⟩, ⟨"ROR", .opMode, 0x98, 0xF8⟩,
   ⟨"NOT", .opMode, 0xA0, 0xF8⟩, ⟨"BRC", .opAddr16, 0xB0, 0xFC⟩, ⟨"BRN", .opAddr16, 0xB4, 0xFC⟩,
   ⟨"SET", .op, 0xB8, 0xFC⟩, ⟨"CLR", .op, 0xBC, 0xFC⟩, ⟨"ADD", .opMode, 0xC0, 0xF8⟩,
   ⟨"SUB", .opMode, 0xC8, 0xF8⟩, ⟨"AND", .opMode, 0xD0, 0xF8⟩, ⟨"IOR", .opMode, 0xD8, 0xF8⟩,
   ⟨"XOR", .opMode, 0xE0, 0xF8⟩, ⟨"CMP", .opMode, 0xE8, 0xF8⟩]

/-- spec/opcode_table.json: 31 rows that cover each of the 256 opcodes once (R64). -/
def opcodeTable : List OpcodeRow := reservedAndCoreRows ++ aluAndFlagRows

/-- The mnemonic of the row an instruction belongs to. -/
def Instr.mnemonic : Instr → String
  | .nopLow _ => "NOP"
  | .nopGap _ => "NOP"
  | .nopHigh _ => "NOP"
  | .str _ _ => "STR"
  | .strM _ _ => "STR.M"
  | .lod _ _ => "LOD"
  | .lodM _ _ => "LOD.M"
  | .lodImm _ _ => "LOD__imm"
  | .psh _ => "PSH"
  | .pll _ => "PLL"
  | .jmp _ => "JMP"
  | .cal _ => "CAL"
  | .rtn _ => "RTN"
  | .trs _ _ => "TRS"
  | .inc _ => "INC"
  | .dec _ => "DEC"
  | .shl _ => "SHL"
  | .shr _ => "SHR"
  | .rol _ => "ROL"
  | .ror _ => "ROR"
  | .not _ => "NOT"
  | .brc _ _ => "BRC"
  | .brn _ _ => "BRN"
  | .set _ => "SET"
  | .clr _ => "CLR"
  | .add _ => "ADD"
  | .sub _ => "SUB"
  | .and _ => "AND"
  | .ior _ => "IOR"
  | .xor _ => "XOR"
  | .cmp _ => "CMP"

/-! ### The host's table words -/

/-- The bytes of the instruction whose bits are `w`, bit 0 the least significant bit of the first byte, every bit
from `nbits` on being 0, up to the longest instruction (3 bytes). -/
def tableBytes (nbits w : Nat) : List Byte :=
  let v := w % 2 ^ nbits
  [BitVec.ofNat 8 v, BitVec.ofNat 8 (v / 0x100), BitVec.ofNat 8 (v / 0x10000)]

/-- The instruction the decoder reads from a table word laid out as the hardware stores it. -/
def decodeTableWord (nbits w : Nat) : Option Instr :=
  match decode (tableBytes nbits w) with
  | .ok (i, _) => some i
  | .error _ => none

end Sys2Proof
end

