-- ==== Sys2Proof/Machine/State.lean ====
section
/-! DEFINITION. The state of the core: everything 10_state.md gives it, as plain data, with the reasons a Cycle can
end by `raise` and the state right after construction. -/

namespace Sys2Proof.Machine

/-- A Cycle ended by `raise` (60_exceptions.md R130), with its FAULT_INFO. The state is unchanged (R133) and FAULT_PC
is the pc of that state (R132), so neither stands here. Safe: the spec's source leaves these cases undefined, and the
model stops where the source may go on (log 4, 5, 10). -/
inductive Fault where
  /-- FAULT_CODE 1. Raised by the opcode fetch, the operand fetch and the indexed-address check; `addr` is the first
  address above 0xFFFF the access would touch. Safe (log 4). -/
  | outOfBounds (addr : Nat)
  /-- FAULT_CODE 2. Raised by PSH at sp = 255 and by CAL at sp >= 254; `sp` is its value before the instruction.
  Safe (log 5). -/
  | stackOverflow (sp : Byte)
  /-- FAULT_CODE 3. Raised by PLL at sp = 0 and by RTN at sp <= 1; `sp` is its value before the instruction.
  Safe (log 5). -/
  | stackUnderflow (sp : Byte)
  deriving DecidableEq, Repr

/-- An instruction without a meaning. No arm of exec answers it: every opcode executes (30_encoding.md R71). -/
inductive Refusal where
  /-- Raised by an arm of exec that has no meaning yet; none is left. Safe. -/
  | notModelled (mnemonic : String)
  deriving DecidableEq, Repr

/-- The status output (10_state.md R31): STATUS = OK with FAULT_CODE 0, or STATUS = FAULT with the fault's code and
info and FAULT_PC (60_exceptions.md R131, R132). While OK there is no FAULT_PC and no FAULT_INFO: log 11. -/
inductive Status where
  | ok
  | fault (f : Fault) (faultPc : Nat)
  deriving DecidableEq, Repr

/-- A byte array as address and byte pairs: addresses strictly rising, no entry equal to `Config.initByte`, which is
what an unlisted address holds (log 9, 16). Reading, writing and the canonical form are in Machine/Memory.lean. -/
abbrev Memory := List Host.Cell

/-- The architectural state (10_state.md), and the status output. -/
structure State where
  /-- x[0], the accumulator (R20) -/
  a : Byte
  /-- x[1] (R20) -/
  x : Byte
  /-- x[2] (R20) -/
  y : Byte
  /-- x[3] (R20) -/
  z : Byte
  /-- F[0], zero (R24) -/
  zf : Bool
  /-- F[1], negative (R24) -/
  nf : Bool
  /-- F[2], carry (R24) -/
  cf : Bool
  /-- F[3], overflow (R24) -/
  vf : Bool
  /-- the instruction pointer, 0 to 0x10000 (R22, R23): log 15 -/
  pc : Nat
  /-- the stack pointer (R27) -/
  sp : Byte
  /-- the stack buffer Stk[0..255] (R28) -/
  stk : Memory
  /-- Memory M[0..0xFFFF] (R29) -/
  mem : Memory
  /-- the status output of the last host operation (R31) -/
  status : Status
  deriving DecidableEq, Repr

/-- The core right after construction (70_reset_and_hazards.md R150, R151; 10_state.md R34): log 8, 9. -/
def State.reset : State where
  a := 0
  x := 0
  y := 0
  z := 0
  zf := false
  nf := false
  cf := false
  vf := false
  pc := Config.resetPc
  sp := 0
  stk := []
  mem := []
  status := .ok

end Sys2Proof.Machine
end

