-- ==== Sys2Proof/Machine/Memory.lean ====
section
/-! DEFINITION. Reading and writing one byte of a byte array (Memory or the stack buffer), and its canonical form. -/

namespace Sys2Proof.Machine

/-- What an address with no entry holds: the byte of construction (70_reset_and_hazards.md R151): log 9. -/
def Memory.unlisted : Byte := Config.initByte

/-- The byte at an address: "the value of the most recent write to that byte" (20_memory.md R56). -/
def Memory.read : Memory → Nat → Byte
  | [], _ => Memory.unlisted
  | (b, w) :: m, a => if b = a then w else Memory.read m a

/-- Put an entry at the front, unless it says what an unlisted address holds anyway. -/
def Memory.put (a : Nat) (v : Byte) (m : Memory) : Memory :=
  if v = Memory.unlisted then m else (a, v) :: m

/-- Store one byte; "a write has no effect beyond the one byte" (20_memory.md R42). Keeps the canonical form. -/
def Memory.write : Memory → Nat → Byte → Memory
  | [], a, v => Memory.put a v []
  | (b, w) :: m, a, v =>
    if a < b then Memory.put a v ((b, w) :: m)
    else if a = b then Memory.put a v m
    else (b, w) :: Memory.write m a v

/-- Entries rise strictly from `lo` on, stay below `size`, and none says what an unlisted address holds. -/
def Memory.wfFrom (size : Nat) : Nat → Memory → Bool
  | _, [] => true
  | lo, (b, w) :: m => lo ≤ b && b < size && w != Memory.unlisted && Memory.wfFrom size (b + 1) m

/-- The canonical form of an array of `size` bytes: equal contents are equal lists. -/
def Memory.wf (size : Nat) (m : Memory) : Bool := Memory.wfFrom size 0 m

/-- The bytes at `a`, `a + 1`, ..., at most `k` of them and none above 0xFFFF. -/
def Memory.window (m : Memory) : Nat → Nat → List Byte
  | 0, _ => []
  | k + 1, a => if a < Config.memSize then m.read a :: Memory.window m k (a + 1) else []

/-- Store bytes at `a`, `a + 1`, ... -/
def Memory.writeBytes (m : Memory) : Nat → List Byte → Memory
  | _, [] => m
  | a, v :: vs => Memory.writeBytes (m.write a v) (a + 1) vs

end Sys2Proof.Machine
end

