-- ==== Sys2Proof/Machine/Ops.lean ====
section
/-! DEFINITION. The named operations of the spec's pseudocode (00_scope.md R7) over registers, flags, Memory, the
stack controller and the instruction pointer, and what a fault does (60_exceptions.md). -/

namespace Sys2Proof.Machine

/-! ### Faults (00_scope.md R8, 60_exceptions.md) -/

/-- `raise E(info)` ends the Cycle; nothing the Cycle wrote is kept (R8, R133). -/
def raise {α : Type} (f : Fault) : Except Fault α := .error f

/-- The end of an instruction: the state it leaves, or the fault it raised. -/
def finish : Except Fault State → Host.Outcome State Fault Refusal
  | .ok s => .next s
  | .error f => .fault f

/-- Taking a fault: full roll-back, and the status output reports it with FAULT_PC = p0 (R131 to R133). There is no
trap entry, no vector and no return from a fault (R136, R137): log 10. -/
def State.reportFault (f : Fault) (s : State) : State := { s with status := .fault f s.pc }

/-- A host operation that ends without a fault sets STATUS = OK and FAULT_CODE = 0 (R131). -/
def State.reportOk (s : State) : State := { s with status := .ok }

/-! ### Registers and flags (10_state.md) -/

/-- `x[i]` (R20). No register is hardwired. -/
def State.reg (s : State) : Reg → Byte
  | .a => s.a
  | .x => s.x
  | .y => s.y
  | .z => s.z

/-- `x[i] <- v` (R20). -/
def State.setReg (s : State) (r : Reg) (v : Byte) : State :=
  match r with
  | .a => { s with a := v }
  | .x => { s with x := v }
  | .y => { s with y := v }
  | .z => { s with z := v }

/-- `F[i]` (R24). -/
def State.flag (s : State) : CondFlag → Bool
  | .z => s.zf
  | .n => s.nf
  | .c => s.cf
  | .v => s.vf

/-- `F[i] <- b` (R24). -/
def State.setFlag (s : State) (f : CondFlag) (b : Bool) : State :=
  match f with
  | .z => { s with zf := b }
  | .n => { s with nf := b }
  | .c => { s with cf := b }
  | .v => { s with vf := b }

/-- The value an index field adds: 0 for no index, else the register, zero-extended (30_encoding.md R66). -/
def State.indexValue (s : State) : Index → Nat
  | .none => 0
  | .x => s.x.toNat
  | .y => s.y.toNat
  | .z => s.z.toNat

/-! ### Memory (20_memory.md) -/

/-- The range check of every Memory access: `n` bytes from `addr` must lie at or below 0xFFFF, else OutOfBounds with
the first address above it. No address wraps (R41, R43). -/
def boundsCheck (addr n : Nat) : Except Fault Unit :=
  if addr + n ≤ Config.memSize then .ok () else raise (.outOfBounds (max addr Config.memSize))

/-- `MemRead(addr, 1)` (R41). -/
def memRead (addr : Nat) (s : State) : Except Fault Byte := do
  boundsCheck addr 1
  .ok (s.mem.read addr)

/-- `MemRead(addr, 2)`, big-endian (R41, R44). -/
def memRead2 (addr : Nat) (s : State) : Except Fault Addr := do
  boundsCheck addr 2
  .ok (joinBytes (s.mem.read addr) (s.mem.read (addr + 1)))

/-- `MemWrite(addr, 1, v)` (R42). -/
def memWrite (addr : Nat) (v : Byte) (s : State) : Except Fault State := do
  boundsCheck addr 1
  .ok { s with mem := s.mem.write addr v }

/-! ### Instruction pointer (30_encoding.md R61, R63) -/

/-- Move pc past `n` operand bytes, which the fetch reads and bounds-checks whether or not the instruction uses them
(R63, R69). Their value is a field of the decoded instruction: log 13. -/
def passOperand (n : Nat) (s : State) : Except Fault State := do
  boundsCheck s.pc n
  .ok { s with pc := s.pc + n }

/-- The bounds check and pc advance of `FetchAddr()` (R63). -/
def fetchAddr (s : State) : Except Fault State := passOperand 2 s

/-- The bounds check and pc advance of `FetchImm8()` (R63). -/
def fetchImm8 (s : State) : Except Fault State := passOperand 1 s

/-- `pc <- target`. -/
def jump (target : Addr) (s : State) : State := { s with pc := target.toNat }

/-! ### The bounded stack controller (20_memory.md R46 to R50) -/

/-- `StkRead(i)` (R46). -/
def stkRead (i : Nat) (s : State) : Byte := s.stk.read i

/-- `StkWrite(i, v)` (R46). -/
def stkWrite (i : Nat) (v : Byte) (s : State) : State := { s with stk := s.stk.write i v }

/-- `Push8(v)`: store at sp, then increment sp; StackOverflow when sp would leave [0, 255] (R47). -/
def push8 (v : Byte) (s : State) : Except Fault State :=
  if s.sp.toNat + 1 ≤ Config.spMax then .ok { stkWrite s.sp.toNat v s with sp := s.sp + 1 }
  else raise (.stackOverflow s.sp)

/-- `Pull8()`: decrement sp, then read at it; StackUnderflow when sp would fall below 0 (R48). -/
def pull8 (s : State) : Except Fault (Byte × State) :=
  if 1 ≤ s.sp.toNat then .ok (stkRead (s.sp.toNat - 1) s, { s with sp := s.sp - 1 })
  else raise (.stackUnderflow s.sp)

/-- `Push16(v)`: the high byte at sp, the low byte at sp + 1, then sp + 2 (R49). -/
def push16 (v : Addr) (s : State) : Except Fault State :=
  if s.sp.toNat + 2 ≤ Config.spMax then
    .ok { stkWrite (s.sp.toNat + 1) (lowByte v) (stkWrite s.sp.toNat (highByte v) s) with sp := s.sp + 2 }
  else raise (.stackOverflow s.sp)

/-- `Pull16()`: sp - 2, then a big-endian read there (R50). -/
def pull16 (s : State) : Except Fault (Addr × State) :=
  if 2 ≤ s.sp.toNat then
    .ok (joinBytes (stkRead (s.sp.toNat - 2) s) (stkRead (s.sp.toNat - 1) s), { s with sp := s.sp - 2 })
  else raise (.stackUnderflow s.sp)

end Sys2Proof.Machine
end

