-- ==== Sys2Proof/Machine/Flags.lean ====
section
/-! DEFINITION. Results and flags of the loads and of the ALU (10_state.md R25, R26; 43_transfer_unary.md; 45_binary_alu.md).
Arithmetic is exact on Nat or Int and narrowed to 8 bits at the end. The flag conditions are the spec's own decisions:
log 1; the CMP comparison: log 3. -/

namespace Sys2Proof.Machine

/-- `SetZN(v)`: Z when v is zero, N when bit 7 of v is set (10_state.md R25). -/
def setZN (v : Byte) (s : State) : State := { s with zf := v == 0, nf := v.getLsbD 7 }

/-- An 8-bit result, with the carry and overflow flags it writes; `none` leaves the flag unchanged (R26). -/
structure AluResult where
  value : Byte
  carry : Option Bool := none
  overflow : Option Bool := none
  deriving DecidableEq, Repr

/-- Write a flag, or leave it as it is. -/
def State.setFlag? (s : State) (f : CondFlag) : Option Bool → State
  | none => s
  | some b => s.setFlag f b

/-- Write the flags of a result: Z and N always, C and V where the operation writes them. -/
def setAluFlags (r : AluResult) (s : State) : State :=
  ((setZN r.value s).setFlag? .c r.carry).setFlag? .v r.overflow

/-! ### Unary (43_transfer_unary.md R102 to R108) -/

/-- INC: v + 1 modulo 256, carry out of bit 7 (R102). -/
def incResult (v : Byte) : AluResult := ⟨BitVec.ofNat 8 (v.toNat + 1), some (v == 0xFF), none⟩

/-- DEC: v - 1 modulo 256, carry is the borrow (R103). -/
def decResult (v : Byte) : AluResult := ⟨BitVec.ofNat 8 (v.toNat + 0xFF), some (v == 0), none⟩

/-- SHL: bit 7 is shifted out into C (R104). -/
def shlResult (v : Byte) : AluResult := ⟨v <<< 1, some (v.getLsbD 7), none⟩

/-- SHR: bit 0 is shifted out into C (R105). -/
def shrResult (v : Byte) : AluResult := ⟨v >>> 1, some (v.getLsbD 0), none⟩

/-- ROL: bit 7 goes to bit 0 and to C; the old C takes no part (R106). -/
def rolResult (v : Byte) : AluResult := ⟨v.rotateLeft 1, some (v.getLsbD 7), none⟩

/-- ROR: bit 0 goes to bit 7 and to C; the old C takes no part (R107). -/
def rorResult (v : Byte) : AluResult := ⟨v.rotateRight 1, some (v.getLsbD 0), none⟩

/-- NOT: complement; C unchanged (R108). -/
def notResult (v : Byte) : AluResult := ⟨v ^^^ 0xFF, none, none⟩

/-! ### Binary (45_binary_alu.md R121 to R126) -/

/-- ADD, no carry-in: C is the carry out of bit 7, V the signed overflow
((a ^ r) & (b ^ r) & 0x80) != 0 (R121). -/
def addResult (a b : Byte) : AluResult :=
  let sum := a.toNat + b.toNat
  let r := BitVec.ofNat 8 sum
  ⟨r, some (decide (sum > 0xFF)), some (((a ^^^ r) &&& (b ^^^ r) &&& 0x80) != 0)⟩

/-- SUB, no borrow-in: C is the borrow a < b, V the signed overflow ((a ^ b) & (a ^ r) & 0x80) != 0 (R122). -/
def subResult (a b : Byte) : AluResult :=
  let diff : Int := (a.toNat : Int) - (b.toNat : Int)
  let r := BitVec.ofInt 8 diff
  ⟨r, some (decide (diff < 0)), some (((a ^^^ b) &&& (a ^^^ r) &&& 0x80) != 0)⟩

/-- AND (R123). -/
def andResult (a b : Byte) : AluResult := ⟨a &&& b, none, none⟩

/-- IOR (R124). -/
def iorResult (a b : Byte) : AluResult := ⟨a ||| b, none, none⟩

/-- XOR (R125). -/
def xorResult (a b : Byte) : AluResult := ⟨a ^^^ b, none, none⟩

/-- CMP: Z, N and C as SUB writes them, V unchanged (R126). -/
def cmpResult (a b : Byte) : AluResult := { subResult a b with overflow := none }

end Sys2Proof.Machine
end

