-- ==== Sys2Proof/Machine/Operands.lean ====
section
/-! DEFINITION. The address decoder and the operand multiplexer (30_encoding.md R65 to R68): every operand form. -/

namespace Sys2Proof.Machine

/-- Where an operand is: `Reg(i)` or `Mem(ea)` (R66). -/
inductive Loc where
  | reg (r : Reg)
  | mem (ea : Nat)
  deriving DecidableEq, Repr

/-- The effective address a + index as an unbounded sum, so that nothing wraps (R66). -/
def effAddr (a : Addr) (i : Index) (s : State) : Nat := a.toNat + s.indexValue i

/-- The memory half of `Resolve(op)`: fetch the address operand, then check the indexed address (R66, R134). -/
def resolveMem (a : Addr) (i : Index) (s : State) : Except Fault (Nat × State) := do
  let s ← fetchAddr s
  let ea := effAddr a i s
  boundsCheck ea 1
  .ok (ea, s)

/-- `Resolve(op)`: the location of a mode operand, and pc past its operand bytes (R66). -/
def resolve (m : Operand) (s : State) : Except Fault (Loc × State) :=
  match m with
  | .reg r => .ok (.reg r, s)
  | .mem a i => do
    let (ea, s) ← resolveMem a i s
    .ok (.mem ea, s)

/-- `ReadMR(loc)` (R67). -/
def readMR (loc : Loc) (s : State) : Except Fault Byte :=
  match loc with
  | .reg r => .ok (s.reg r)
  | .mem ea => memRead ea s

/-- `WriteMR(loc, v)` (R68). -/
def writeMR (loc : Loc) (v : Byte) (s : State) : Except Fault State :=
  match loc with
  | .reg r => .ok (s.setReg r v)
  | .mem ea => memWrite ea v s

end Sys2Proof.Machine
end

