-- ==== Sys2Proof/Machine/BinaryAlu.lean ====
section
/-! DEFINITION. The binary ALU on the accumulator (45_binary_alu.md). A meaning starts with pc at p0 + 1. -/

namespace Sys2Proof.Machine

/-- What the template computes of its operand: the result of A and the operand byte, and the state with pc past the
operand (R120). -/
def binaryResult (g : Byte → Byte → AluResult) (m : Operand) (s : State) : Except Fault (AluResult × State) := do
  let (loc, s) ← resolve m s
  let b ← readMR loc s
  .ok (g (s.reg .a) b, s)

/-- The template of ADD to XOR: the result goes to A, then the flags the operation names (R120). -/
def binary (g : Byte → Byte → AluResult) (m : Operand) (s : State) : Host.Outcome State Fault Refusal := finish do
  let (r, s) ← binaryResult g m s
  .ok (setAluFlags r (s.setReg .a r.value))

/-- The template of CMP: flags only, nothing stored (R120, R126). -/
def flagsOnly (g : Byte → Byte → AluResult) (m : Operand) (s : State) : Host.Outcome State Fault Refusal := finish do
  let (r, s) ← binaryResult g m s
  .ok (setAluFlags r s)

/-- ADD (R121). -/
def execAdd (m : Operand) (s : State) : Host.Outcome State Fault Refusal := binary addResult m s

/-- SUB (R122). -/
def execSub (m : Operand) (s : State) : Host.Outcome State Fault Refusal := binary subResult m s

/-- AND (R123). -/
def execAnd (m : Operand) (s : State) : Host.Outcome State Fault Refusal := binary andResult m s

/-- IOR (R124). -/
def execIor (m : Operand) (s : State) : Host.Outcome State Fault Refusal := binary iorResult m s

/-- XOR (R125). -/
def execXor (m : Operand) (s : State) : Host.Outcome State Fault Refusal := binary xorResult m s

/-- CMP, the spec's deliberate extension (R126): log 3. -/
def execCmp (m : Operand) (s : State) : Host.Outcome State Fault Refusal := flagsOnly cmpResult m s

end Sys2Proof.Machine
end

