-- ==== Sys2Proof/Machine/FlagsBranch.lean ====
section
/-! DEFINITION. Flag branches and flag writes (44_flags_branch.md). A meaning starts with pc at p0 + 1. -/

namespace Sys2Proof.Machine

/-- Fetch the address operand, then jump to it or leave pc past it; the fetch is checked either way (R69, R110). -/
def branchIf (taken : Bool) (a : Addr) (s : State) : Host.Outcome State Fault Refusal := finish do
  let s ← fetchAddr s
  .ok (if taken then jump a s else s)

/-- BRC f, $a: taken when the flag is set (R110). -/
def execBrc (f : CondFlag) (a : Addr) (s : State) : Host.Outcome State Fault Refusal := branchIf (s.flag f) a s

/-- BRN f, $a: taken when the flag is clear (R111). -/
def execBrn (f : CondFlag) (a : Addr) (s : State) : Host.Outcome State Fault Refusal := branchIf (!s.flag f) a s

/-- SET f (R112). -/
def execSet (f : CondFlag) (s : State) : Host.Outcome State Fault Refusal := .next (s.setFlag f true)

/-- CLR f (R113). -/
def execClr (f : CondFlag) (s : State) : Host.Outcome State Fault Refusal := .next (s.setFlag f false)

end Sys2Proof.Machine
end

