-- ==== Sys2Proof/Machine/LoadStore.lean ====
section
/-! DEFINITION. Loads and stores (41_load_store.md). A meaning starts with pc at the first operand byte, p0 + 1. -/

namespace Sys2Proof.Machine

/-- STR r, $a: M[a] <- x[r] (R82). -/
def execStr (r : Reg) (a : Addr) (s : State) : Host.Outcome State Fault Refusal := finish do
  let s ← fetchAddr s
  memWrite a.toNat (s.reg r) s

/-- STR.M: the accumulator to M[a + index] (R83). -/
def execStrM (a : Addr) (i : Index) (s : State) : Host.Outcome State Fault Refusal := finish do
  let (ea, s) ← resolveMem a i s
  memWrite ea (s.reg .a) s

/-- LOD r, $a: x[r] <- M[a], and Z and N from it (R84). -/
def execLod (r : Reg) (a : Addr) (s : State) : Host.Outcome State Fault Refusal := finish do
  let s ← fetchAddr s
  let v ← memRead a.toNat s
  .ok (setZN v (s.setReg r v))

/-- LOD.M: the accumulator from M[a + index]; no flag (R85). -/
def execLodM (a : Addr) (i : Index) (s : State) : Host.Outcome State Fault Refusal := finish do
  let (ea, s) ← resolveMem a i s
  let v ← memRead ea s
  .ok (s.setReg .a v)

/-- LOD r, #n: x[r] <- n; no flag (R86). -/
def execLodImm (r : Reg) (n : Byte) (s : State) : Host.Outcome State Fault Refusal := finish do
  let s ← fetchImm8 s
  .ok (s.setReg r n)

end Sys2Proof.Machine
end

