-- ==== Sys2Proof/Machine/Nop.lean ====
section
/-! DEFINITION. The reserved opcodes: nothing happens beyond the opcode fetch (40_nop.md R80, R81). -/

namespace Sys2Proof.Machine

/-- NOP 0x00-0x3F (R80). -/
def execNopLow (s : State) : Host.Outcome State Fault Refusal := .next s

/-- NOP 0xA8-0xAF (R80). -/
def execNopGap (s : State) : Host.Outcome State Fault Refusal := .next s

/-- NOP 0xF0-0xFF (R80). -/
def execNopHigh (s : State) : Host.Outcome State Fault Refusal := .next s

end Sys2Proof.Machine
end

