-- ==== Sys2Proof/Machine/StackControl.lean ====
section
/-! DEFINITION. Stack and control transfer (42_stack_control.md). A meaning starts with pc at p0 + 1. -/

namespace Sys2Proof.Machine

/-- PSH r (R90). -/
def execPsh (r : Reg) (s : State) : Host.Outcome State Fault Refusal := finish (push8 (s.reg r) s)

/-- PLL r; no flag (R91). -/
def execPll (r : Reg) (s : State) : Host.Outcome State Fault Refusal := finish do
  let (v, s) ← pull8 s
  .ok (s.setReg r v)

/-- JMP $a (R92). -/
def execJmp (a : Addr) (s : State) : Host.Outcome State Fault Refusal := finish do
  let s ← fetchAddr s
  .ok (jump a s)

/-- The return address CAL pushes: the pointer after the opcode fetch, plus 1, so p0 + 2 and not the next
instruction's p0 + 3 (R93, R94): log 6. -/
def returnAddress (s : State) : Addr := BitVec.ofNat 16 (s.pc + 1)

/-- CAL $a: the operand fetch is checked before the stack (R93, R134). -/
def execCal (a : Addr) (s : State) : Host.Outcome State Fault Refusal := finish do
  let ret := returnAddress s
  let s ← fetchAddr s
  let s ← push16 ret s
  .ok (jump a s)

/-- RTN (R95). -/
def execRtn (s : State) : Host.Outcome State Fault Refusal := finish do
  let (a, s) ← pull16 s
  .ok (jump a s)

end Sys2Proof.Machine
end

