-- ==== Sys2Proof/Machine/TransferUnary.lean ====
section
/-! DEFINITION. Register transfer and the unary ALU (43_transfer_unary.md). A meaning starts with pc at p0 + 1. -/

namespace Sys2Proof.Machine

/-- TRS d, s: x[d] <- x[s]; no flag (R100). -/
def execTrs (d r : Reg) (s : State) : Host.Outcome State Fault Refusal := .next (s.setReg d (s.reg r))

/-- The template of every unary instruction: one location, read, transformed, written back, flags (R101). -/
def unary (f : Byte → AluResult) (m : Operand) (s : State) : Host.Outcome State Fault Refusal := finish do
  let (loc, s) ← resolve m s
  let v ← readMR loc s
  let s ← writeMR loc (f v).value s
  .ok (setAluFlags (f v) s)

/-- INC (R102). -/
def execInc (m : Operand) (s : State) : Host.Outcome State Fault Refusal := unary incResult m s

/-- DEC (R103). -/
def execDec (m : Operand) (s : State) : Host.Outcome State Fault Refusal := unary decResult m s

/-- SHL (R104). -/
def execShl (m : Operand) (s : State) : Host.Outcome State Fault Refusal := unary shlResult m s

/-- SHR (R105). -/
def execShr (m : Operand) (s : State) : Host.Outcome State Fault Refusal := unary shrResult m s

/-- ROL (R106). -/
def execRol (m : Operand) (s : State) : Host.Outcome State Fault Refusal := unary rolResult m s

/-- ROR (R107). -/
def execRor (m : Operand) (s : State) : Host.Outcome State Fault Refusal := unary rorResult m s

/-- NOT (R108). -/
def execNot (m : Operand) (s : State) : Host.Outcome State Fault Refusal := unary notResult m s

end Sys2Proof.Machine
end

