-- ==== Sys2Proof/Machine/Dispatch.lean ====
section
/-! DEFINITION. `Execute(op)` (30_encoding.md R64): one arm per instruction, each a call of its meaning, run with pc at
the first operand byte, p0 + 1 (R61). -/

namespace Sys2Proof.Machine

def exec (i : Instr) (s : State) : Host.Outcome State Fault Refusal :=
  match i with
  | .nopLow _ => Sys2Proof.Machine.execNopLow s
  | .nopGap _ => Sys2Proof.Machine.execNopGap s
  | .nopHigh _ => Sys2Proof.Machine.execNopHigh s
  | .str r a => Sys2Proof.Machine.execStr r a s
  | .strM a ix => Sys2Proof.Machine.execStrM a ix s
  | .lod r a => Sys2Proof.Machine.execLod r a s
  | .lodM a ix => Sys2Proof.Machine.execLodM a ix s
  | .lodImm r n => Sys2Proof.Machine.execLodImm r n s
  | .psh r => Sys2Proof.Machine.execPsh r s
  | .pll r => Sys2Proof.Machine.execPll r s
  | .jmp a => Sys2Proof.Machine.execJmp a s
  | .cal a => Sys2Proof.Machine.execCal a s
  | .rtn _ => Sys2Proof.Machine.execRtn s
  | .trs d r => Sys2Proof.Machine.execTrs d r s
  | .inc m => Sys2Proof.Machine.execInc m s
  | .dec m => Sys2Proof.Machine.execDec m s
  | .shl m => Sys2Proof.Machine.execShl m s
  | .shr m => Sys2Proof.Machine.execShr m s
  | .rol m => Sys2Proof.Machine.execRol m s
  | .ror m => Sys2Proof.Machine.execRor m s
  | .not m => Sys2Proof.Machine.execNot m s
  | .brc f a => Sys2Proof.Machine.execBrc f a s
  | .brn f a => Sys2Proof.Machine.execBrn f a s
  | .set f => Sys2Proof.Machine.execSet f s
  | .clr f => Sys2Proof.Machine.execClr f s
  | .add m => Sys2Proof.Machine.execAdd m s
  | .sub m => Sys2Proof.Machine.execSub m s
  | .and m => Sys2Proof.Machine.execAnd m s
  | .ior m => Sys2Proof.Machine.execIor m s
  | .xor m => Sys2Proof.Machine.execXor m s
  | .cmp m => Sys2Proof.Machine.execCmp m s

end Sys2Proof.Machine
end

