-- ==== Sys2Proof/Machine/Cycle.lean ====
section
/-! DEFINITION. The `Cycle` step: fetch, decode, execute (30_encoding.md R60). -/

namespace Sys2Proof.Machine

/-- The longest instruction has 3 bytes (00_scope.md R5). -/
def maxLength : Nat := 3

/-- The bytes at pc that the decoder may read: they stop at the top of Memory. Read as Memory stands when the Cycle
begins (20_memory.md R59). -/
def fetchWindow (s : State) : List Byte := s.mem.window maxLength s.pc

/-- Fetch and decode one instruction. The decoder rejects only bytes that end inside the instruction, and then the
fetch touches an address above 0xFFFF: the opcode fetch at pc = 0x10000, or an operand fetch (R60, R63, R69). -/
def fetch (s : State) : Except Fault Instr :=
  match decode (fetchWindow s) with
  | .ok (i, _) => .ok i
  | .error .noOpcode => raise (.outOfBounds (max s.pc Config.memSize))
  | .error (.truncated _) => raise (.outOfBounds (max s.pc Config.memSize))

/-- The end of a Cycle: one that completes sets STATUS = OK (60_exceptions.md R141). -/
def complete : Host.Outcome State Fault Refusal → Host.Outcome State Fault Refusal
  | .next s => .next s.reportOk
  | .fault f => .fault f
  | .refused r => .refused r

/-- `Cycle()`: fetch the opcode at p0 = pc, advance pc past it, execute (R60). A Cycle that raises has no effect: its
outcome is the fault, and the state before it stands (60_exceptions.md R133). -/
def cycle (s : State) : Host.Outcome State Fault Refusal :=
  match fetch s with
  | .ok i => complete (exec i { s with pc := s.pc + 1 })
  | .error f => .fault f

end Sys2Proof.Machine
end

