-- ==== Sys2Proof/Machine/Step.lean ====
section
/-! DEFINITION. The step of the machine is one `Cycle` (60_exceptions.md R141), and how the host places one table word
where the next step fetches (log 14). -/

namespace Sys2Proof.Machine

/-- One step: `Cycle`, "the sole transition function" (60_exceptions.md R141). -/
def step (s : State) : Host.Outcome State Fault Refusal := cycle s

/-- `s` with the table word stored at pc, where step fetches. Where a 3-byte instruction does not fit below the top of
Memory (pc above 0xFFFD), it is stored at the entry point instead and pc set there: log 14. -/
def State.withFetchWord (s : State) (nbits w : Nat) : State :=
  let at0 := if s.pc + maxLength ≤ Config.memSize then s.pc else Config.resetPc
  { s with pc := at0, mem := s.mem.writeBytes at0 (tableBytes nbits w) }

end Sys2Proof.Machine
end

