-- ==== Sys2Proof/Machine/HostPort.lean ====
section
/-! DEFINITION. The host interface (60_exceptions.md R140 to R146; 70_reset_and_hazards.md R150 to R153): the six host
operations, their results, a schedule of them, the boot sequence, and several independent cores. -/

namespace Sys2Proof.Machine

/-! ### The status output (60_exceptions.md R131, R132) -/

/-- FAULT_CODE of a fault (R130). -/
def Fault.code : Fault → Nat
  | .outOfBounds _ => 1
  | .stackOverflow _ => 2
  | .stackUnderflow _ => 3

/-- FAULT_INFO of a fault (R130, R132). -/
def Fault.info : Fault → Nat
  | .outOfBounds addr => addr
  | .stackOverflow sp => sp.toNat
  | .stackUnderflow sp => sp.toNat

/-- STATUS: OK is 0, FAULT is 1 (R131). -/
def Status.bit : Status → Nat
  | .ok => 0
  | .fault _ _ => 1

/-- FAULT_CODE: 0 while STATUS = OK (R131). -/
def Status.faultCode : Status → Nat
  | .ok => 0
  | .fault f _ => f.code

/-- FAULT_PC, when there is a fault (R132): log 11. -/
def Status.faultPc : Status → Option Nat
  | .ok => none
  | .fault _ pc => some pc

/-- FAULT_INFO, when there is a fault (R132): log 11. -/
def Status.faultInfo : Status → Option Nat
  | .ok => none
  | .fault f _ => some f.info

/-! ### Operations -/

/-- The operations of R140. PEEK reads a Memory byte or a stack byte. -/
inductive HostOp where
  | cycle
  | reachedEnd
  | inspect
  | peekMem (addr : Addr)
  | peekStk (i : Byte)
  | load (addr : Addr) (v : Byte)
  | reset
  deriving DecidableEq, Repr

/-- What INSPECT returns (R143). -/
structure Snapshot where
  a : Byte
  x : Byte
  y : Byte
  z : Byte
  flags : BitVec 4
  pc : Nat
  sp : Byte
  inBounds : Bool
  deriving DecidableEq, Repr

/-- The results of R140. `noMeaning` stands for a refused Cycle; no instruction of this model is refused. -/
inductive HostResult where
  | status (st : Status)
  | bool (b : Bool)
  | snapshot (snap : Snapshot)
  | byte (v : Byte)
  | done
  | noMeaning (r : Refusal)
  deriving DecidableEq, Repr

/-- FLAGS: bit i = F[i], bit 0 Z, 1 N, 2 C, 3 V (10_state.md R30). -/
def State.flagsPacked (s : State) : BitVec 4 :=
  BitVec.ofBool s.vf ++ BitVec.ofBool s.cf ++ BitVec.ofBool s.nf ++ BitVec.ofBool s.zf

/-- IN_BOUNDS: "true iff pointer is within [0, 256)" (10_state.md R32; 60_exceptions.md R143). -/
def State.inBounds (s : State) : Bool := s.sp.toNat < Config.stackSize

/-- INSPECT's snapshot (R143). -/
def State.snapshot (s : State) : Snapshot :=
  ⟨s.a, s.x, s.y, s.z, s.flagsPacked, s.pc, s.sp, s.inBounds⟩

/-- CYCLE: a Cycle that raises leaves the state as it was and the status output reports the fault (R133, R141). -/
def hostCycle (s : State) : HostResult × State :=
  match step s with
  | .next t => (.status t.status, t)
  | .fault f => (.status (s.reportFault f).status, s.reportFault f)
  | .refused r => (.noMeaning r, s)

/-- REACHED_END: at the end of Memory pc <- 0 and true, else false and no change (R142). -/
def hostReachedEnd (s : State) : HostResult × State :=
  if Config.memSize ≤ s.pc then (.bool true, { s with pc := 0 }.reportOk) else (.bool false, s.reportOk)

/-- LOAD: M[addr] <- byte (R144). -/
def hostLoad (addr : Addr) (v : Byte) (s : State) : State := { s with mem := s.mem.write addr.toNat v }.reportOk

/-- RESET: the registers, flags, pc, sp and status of R150; Memory and the stack buffer are kept. -/
def hostReset (s : State) : State := { State.reset with mem := s.mem, stk := s.stk }

/-- One host operation: its result and the state after it. Each ends by setting the status output (R131): log 12. -/
def hostOp (op : HostOp) (s : State) : HostResult × State :=
  match op with
  | .cycle => hostCycle s
  | .reachedEnd => hostReachedEnd s
  | .inspect => (.snapshot s.snapshot, s.reportOk)
  | .peekMem addr => (.byte (s.mem.read addr.toNat), s.reportOk)
  | .peekStk i => (.byte (s.stk.read i.toNat), s.reportOk)
  | .load addr v => (.done, hostLoad addr v s)
  | .reset => (.done, hostReset s)

/-- A schedule of host operations, one at a time (10_state.md R33; R140). -/
def hostRun : List HostOp → State → List HostResult × State
  | [], s => ([], s)
  | op :: ops, s =>
    let (r, s) := hostOp op s
    let (rs, s) := hostRun ops s
    (r :: rs, s)

/-! ### Boot (70_reset_and_hazards.md R153) -/

/-- LOAD operations that place bytes from an address up (60_exceptions.md R144). -/
def loadOps (base : Nat) (bytes : List Byte) : List HostOp :=
  bytes.mapIdx fun k v => .load (BitVec.ofNat 16 (base + k)) v

/-- Construct the core, then load PROGRAM_IMAGE with its first instruction at 0x0000 (R151, R153): log 14. -/
def boot (image : List Byte) : State := (hostRun (loadOps Config.resetPc image) State.reset).2

/-! ### Several cores (60_exceptions.md R146) -/

/-- Independent cores, each with its own Memory, stack and schedule: log 19. -/
abbrev System := List State

/-- A host operation on core `k`; no other core is touched. -/
def systemOp (k : Nat) (op : HostOp) (sys : System) : System := sys.modify k fun s => (hostOp op s).2

end Sys2Proof.Machine
end

