-- ==== Sys2Proof/Machine/Assembly.lean ====
section
/-! DEFINITION. The assembly text of 30_encoding.md R73 to R77: the disassembler's spelling of an instruction, and an
assembler from text to the bytes a host loads. It changes nothing in the machine. Conventions the rules leave open are
in log 17 and 23. There are no pseudo-instructions (R77). -/

namespace Sys2Proof.Machine

/-! ### Disassembler (R75, R76) -/

/-- One upper-case hexadecimal digit. -/
def hexDigit (n : Nat) : Char := "0123456789ABCDEF".toList.getD (n % 16) '0'

/-- `$hh` (R74, R76); that an immediate too has this form, and that its digits are upper-case, is the model's choice:
log 23. -/
def hexByte (v : Byte) : String := String.ofList ['$', hexDigit (v.toNat / 16), hexDigit v.toNat]

/-- `$hhhh` (R74): an address always as four upper-case hexadecimal digits is the model's choice: log 23. -/
def hexAddr (a : Addr) : String :=
  String.ofList ['$', hexDigit (a.toNat / 0x1000), hexDigit (a.toNat / 0x100), hexDigit (a.toNat / 0x10), hexDigit a.toNat]

/-- `A`, `X`, `Y`, `Z` (R74). -/
def regText : Reg → String
  | .a => "A"
  | .x => "X"
  | .y => "Y"
  | .z => "Z"

/-- `ZF`, `NF`, `CF`, `VF` (R74). -/
def flagText : CondFlag → String
  | .z => "ZF"
  | .n => "NF"
  | .c => "CF"
  | .v => "VF"

/-- `$a`, or `$a, i` (R75). -/
def memText (a : Addr) : Index → String
  | .none => hexAddr a
  | .x => hexAddr a ++ ", X"
  | .y => hexAddr a ++ ", Y"
  | .z => hexAddr a ++ ", Z"

/-- The mode operand `mop` (R75). -/
def operandText : Operand → String
  | .reg r => regText r
  | .mem a i => memText a i

/-- `NOP`, with the opcode in a comment when it is not the assembler's 0x00 (R76). -/
def nopText (op : Byte) : String := if op = 0 then "NOP" else "NOP ; " ++ hexByte op

/-- The spelling a disassembler prints (R75, R76); its number form is log 23. -/
def disassemble : Instr → String
  | .nopLow op => nopText op
  | .nopGap op => nopText op
  | .nopHigh op => nopText op
  | .str r a => "STR " ++ regText r ++ ", " ++ hexAddr a
  | .strM a i => "STR.M " ++ memText a i
  | .lod r a => "LOD " ++ regText r ++ ", " ++ hexAddr a
  | .lodM a i => "LOD.M " ++ memText a i
  | .lodImm r n => "LOD " ++ regText r ++ ", #" ++ hexByte n
  | .psh r => "PSH " ++ regText r
  | .pll r => "PLL " ++ regText r
  | .jmp a => "JMP " ++ hexAddr a
  | .cal a => "CAL " ++ hexAddr a
  | .rtn _ => "RTN"
  | .trs d s => "TRS " ++ regText d ++ ", " ++ regText s
  | .inc m => "INC " ++ operandText m
  | .dec m => "DEC " ++ operandText m
  | .shl m => "SHL " ++ operandText m
  | .shr m => "SHR " ++ operandText m
  | .rol m => "ROL " ++ operandText m
  | .ror m => "ROR " ++ operandText m
  | .not m => "NOT " ++ operandText m
  | .brc f a => "BRC " ++ flagText f ++ ", " ++ hexAddr a
  | .brn f a => "BRN " ++ flagText f ++ ", " ++ hexAddr a
  | .set f => "SET " ++ flagText f
  | .clr f => "CLR " ++ flagText f
  | .add m => "ADD " ++ operandText m
  | .sub m => "SUB " ++ operandText m
  | .and m => "AND " ++ operandText m
  | .ior m => "IOR " ++ operandText m
  | .xor m => "XOR " ++ operandText m
  | .cmp m => "CMP " ++ operandText m

/-! ### Lexical conventions (R74) -/

/-- A lexical unit of a line. -/
inductive Token where
  | word (w : List Char)
  | comma
  | colon
  | hash
  deriving DecidableEq, Repr

/-- Close the word collected so far (in reverse), if there is one. -/
def closeWord (w : List Char) (ts : List Token) : List Token := if w = [] then ts else .word w.reverse :: ts

/-- The tokens of one line; `;` starts a comment. `w` is the word collected so far, in reverse. -/
def tokenize (w : List Char) : List Char → List Token
  | [] => closeWord w []
  | c :: cs =>
    if c = ';' then closeWord w []
    else if c.isWhitespace then closeWord w (tokenize [] cs)
    else if c = ',' then closeWord w (.comma :: tokenize [] cs)
    else if c = ':' then closeWord w (.colon :: tokenize [] cs)
    else if c = '#' then closeWord w (.hash :: tokenize [] cs)
    else tokenize (c :: w) cs

/-- The lines of a text. `l` is the line collected so far, in reverse. -/
def splitLines (l : List Char) : List Char → List (List Char)
  | [] => [l.reverse]
  | c :: cs => if c = '\n' then l.reverse :: splitLines [] cs else splitLines (c :: l) cs

/-- The value of a digit in a base, hexadecimal letters in either case. -/
def digitValue (base : Nat) (c : Char) : Option Nat :=
  let v := "0123456789ABCDEF".toList.idxOf c.toUpper
  if v < base then some v else none

/-- The value of a digit string, most significant digit first. -/
def digitsValue (base : Nat) : Nat → List Char → Option Nat
  | acc, [] => some acc
  | acc, c :: cs => do digitsValue base (acc * base + (← digitValue base c)) cs

/-- `$h..h` is hexadecimal, a bare digit string is decimal (R74). -/
def parseNumber : List Char → Option Nat
  | [] => none
  | '$' :: [] => none
  | '$' :: ds => digitsValue 16 0 ds
  | ds => digitsValue 10 0 ds

/-- A register name, in either case (R74). -/
def parseReg (w : List Char) : Option Reg :=
  match w.map Char.toUpper with
  | ['A'] => some .a
  | ['X'] => some .x
  | ['Y'] => some .y
  | ['Z'] => some .z
  | _ => none

/-- An index register X, Y or Z (R75). -/
def parseIndex (w : List Char) : Option Index :=
  match parseReg w with
  | some .x => some .x
  | some .y => some .y
  | some .z => some .z
  | _ => none

/-- A flag name (R74). -/
def parseFlag (w : List Char) : Option CondFlag :=
  match w.map Char.toUpper with
  | ['Z', 'F'] => some .z
  | ['N', 'F'] => some .n
  | ['C', 'F'] => some .c
  | ['V', 'F'] => some .v
  | _ => none

/-- The addresses of the labels. -/
abbrev Labels := List (List Char × Nat)

/-- The address a number or a label stands for: 0 to 0xFFFF (R74). A label may stand at 0x10000, after a byte at 0xFFFF,
but is rejected there as an operand: the model's choice, log 17. -/
def inRange (n : Nat) : Option Addr := if n < Config.memSize then some (BitVec.ofNat 16 n) else none

/-- An address operand: 0 to 0xFFFF, or a label (R74). Before the labels are known, every label stands for 0. -/
def parseAddr (env : Option Labels) (w : List Char) : Option Addr :=
  match parseNumber w, env with
  | some n, _ => inRange n
  | none, none => some 0
  | none, some labels => (labels.lookup w).bind inRange

/-- A byte: an immediate or a `.byte` item, 0 to 255 (R74). -/
def parseByte (w : List Char) : Option Byte :=
  (parseNumber w).bind fun n => if n < 256 then some (BitVec.ofNat 8 n) else none

/-- `$a` or `$a, i` (R75). -/
def parseMem (env : Option Labels) : List Token → Option (Addr × Index)
  | [.word a] => (parseAddr env a).map fun a => (a, .none)
  | [.word a, .comma, .word i] => do return (← parseAddr env a, ← parseIndex i)
  | _ => none

/-- The mode operand `mop` (R75): a register name, else a memory operand. -/
def parseOperand (env : Option Labels) (ts : List Token) : Option Operand :=
  match ts with
  | [.word w] =>
    match parseReg w with
    | some r => some (.reg r)
    | none => (parseAddr env w).map fun a => .mem a .none
  | ts => (parseMem env ts).map fun (a, i) => .mem a i

/-- One instruction of R75. -/
def parseInstr (env : Option Labels) (mnemonic : List Char) (ts : List Token) : Option Instr :=
  let addr := parseAddr env
  let mop := parseOperand env
  match String.ofList (mnemonic.map Char.toUpper), ts with
  | "NOP", [] => some (.nopLow 0)
  | "STR", [.word r, .comma, .word a] => do return .str (← parseReg r) (← addr a)
  | "STR.M", ts => do let (a, i) ← parseMem env ts; return .strM a i
  | "LOD", [.word r, .comma, .hash, .word n] => do return .lodImm (← parseReg r) (← parseByte n)
  | "LOD", [.word r, .comma, .word a] => do return .lod (← parseReg r) (← addr a)
  | "LOD.M", ts => do let (a, i) ← parseMem env ts; return .lodM a i
  | "PSH", [.word r] => do return .psh (← parseReg r)
  | "PLL", [.word r] => do return .pll (← parseReg r)
  | "JMP", [.word a] => do return .jmp (← addr a)
  | "CAL", [.word a] => do return .cal (← addr a)
  | "RTN", [] => some (.rtn 0x5E)
  | "TRS", [.word d, .comma, .word s] => do return .trs (← parseReg d) (← parseReg s)
  | "INC", ts => (mop ts).map .inc
  | "DEC", ts => (mop ts).map .dec
  | "SHL", ts => (mop ts).map .shl
  | "SHR", ts => (mop ts).map .shr
  | "ROL", ts => (mop ts).map .rol
  | "ROR", ts => (mop ts).map .ror
  | "NOT", ts => (mop ts).map .not
  | "BRC", [.word f, .comma, .word a] => do return .brc (← parseFlag f) (← addr a)
  | "BRN", [.word f, .comma, .word a] => do return .brn (← parseFlag f) (← addr a)
  | "SET", [.word f] => (parseFlag f).map .set
  | "CLR", [.word f] => (parseFlag f).map .clr
  | "ADD", ts => (mop ts).map .add
  | "SUB", ts => (mop ts).map .sub
  | "AND", ts => (mop ts).map .and
  | "IOR", ts => (mop ts).map .ior
  | "XOR", ts => (mop ts).map .xor
  | "CMP", ts => (mop ts).map .cmp
  | _, _ => none

/-- The comma-separated words of a `.byte` or `.word` line. -/
def commaWords : List Token → Option (List (List Char))
  | [.word w] => some [w]
  | .word w :: .comma :: ts => (commaWords ts).map (w :: ·)
  | _ => none

/-- What a line does beside defining a label: nothing, set the current address, or emit bytes (R74, R77). -/
inductive LineEffect where
  | nothing
  | org (addr : Nat)
  | emit (bytes : List Byte)
  deriving DecidableEq, Repr

/-- The directive or instruction of a line whose label has been taken off (R74, R75). -/
def lineEffect (env : Option Labels) : List Token → Option LineEffect
  | [] => some .nothing
  | .word w :: ts =>
    match String.ofList (w.map Char.toUpper), ts with
    | ".ORG", [.word a] => (parseNumber a).bind fun n => if n < Config.memSize then some (.org n) else none
    | ".BYTE", ts => do return .emit (← (← commaWords ts).mapM parseByte)
    | ".WORD", ts => do return .emit ((← (← commaWords ts).mapM (parseAddr env)).flatMap addrBytes)
    | _, ts => (parseInstr env w ts).map fun i => .emit (encode i)
  | _ => none

/-- Bytes at consecutive addresses. -/
def cellsAt (base : Nat) (bytes : List Byte) : List Host.Cell := bytes.mapIdx fun k v => (base + k, v)

/-- A pass over the lines from the current address: the labels it defines and the bytes it emits. A label defined
twice and a byte above 0xFFFF are rejected. Any word may be a label: the model's choice, log 17. -/
def assemblePass (env : Option Labels) : List (List Token) → Nat → Labels → Option (Labels × List Host.Cell)
  | [], _, labels => some (labels, [])
  | line :: lines, cur, labels => do
    let (labels, rest) ← match line with
      | .word l :: .colon :: rest => if (labels.lookup l).isSome then none else some ((l, cur) :: labels, rest)
      | rest => some (labels, rest)
    match ← lineEffect env rest with
    | .nothing => assemblePass env lines cur labels
    | .org addr => assemblePass env lines addr labels
    | .emit bytes =>
      if cur + bytes.length ≤ Config.memSize then
        let (labels, cells) ← assemblePass env lines (cur + bytes.length) labels
        return (labels, cellsAt cur bytes ++ cells)
      else none

/-- Assemble a text: a first pass for the labels, whose values no length depends on (R70), and a second for the bytes. -/
def assemble (text : String) : Option (List Host.Cell) := do
  let lines := (splitLines [] text.toList).map (tokenize [])
  let (labels, _) ← assemblePass none lines 0 []
  let (_, cells) ← assemblePass (some labels) lines 0 []
  return cells

/-- The LOAD operations that place assembled bytes (60_exceptions.md R144). -/
def cellOps (cells : List Host.Cell) : List HostOp := cells.map fun (a, v) => .load (BitVec.ofNat 16 a) v

end Sys2Proof.Machine
end

