-- ==== Sys2Proof/Safety.lean ====
section
/-! DEFINITION. What claims mean by a legal state, by a fault-free Cycle, and by the end of a run. -/

namespace Sys2Proof.Machine

/-- A state the core can be in: pc is 0 to 0x10000 (10_state.md R22), Memory and the stack buffer are arrays of their
size in canonical form (R28, R29). sp is in [0, 255] by its width (R27). -/
def State.Inv (s : State) : Prop :=
  s.pc ≤ Config.memSize ∧ s.mem.wf Config.memSize = true ∧ s.stk.wf Config.stackSize = true

/-- The next Cycle completes. -/
def State.Completes (s : State) : Prop := ∃ t, step s = .next t

/-- How a run ended, from the host's view (70_reset_and_hazards.md R158). -/
inductive RunEnd where
  | faulted (f : Fault)
  | endOfMemory
  | selfLoop
  | budget
  | noMeaning (r : Refusal)
  deriving DecidableEq, Repr

/-- The bytes at pc are `JMP $pc`: 5C pc[15:8] pc[7:0] (R158 c). -/
def State.atSelfLoop (s : State) : Bool := fetchWindow s == encode (.jmp (BitVec.ofNat 16 s.pc))

/-- A run of at most `budget` Cycles and the way it ended (R158). A run that ends at pc = 0x10000 or in a self-loop
stops there; when the budget is spent first, it ends BUDGET: log 18. -/
def runToEnd : Nat → State → RunEnd × State
  | 0, s => (.budget, s)
  | k + 1, s =>
    if s.atSelfLoop then (.selfLoop, s)
    else
      match step s with
      | .next t => if t.pc = Config.memSize then (.endOfMemory, t) else runToEnd k t
      | .fault f => (.faulted f, s.reportFault f)
      | .refused r => (.noMeaning r, s)

end Sys2Proof.Machine
end

