-- ==== Sys2Proof/Certificates/Slice0/Obligations.lean ====
section
/-! DEFINITION. The statements of this row. `exec` runs with pc at the first operand byte (p0 + 1, 30_encoding.md R61),
so a rule's "p0 >= 0xFFFE" reads here as pc + 2 > 0x10000. Helpers that write the spec's tables down stand first, under
`Sys2Proof.Spec`. -/

namespace Sys2Proof.Spec

open Sys2Proof.Machine

/-- The number of a register (10_state.md R20). -/
def regNumber : Reg → Nat
  | .a => 0
  | .x => 1
  | .y => 2
  | .z => 3

/-- The number of a flag (10_state.md R24). -/
def flagNumber : CondFlag → Nat
  | .z => 0
  | .n => 1
  | .c => 2
  | .v => 3

/-- Apply a function to the state an outcome ends in, if it ends in one. -/
def mapNext (f : State → State) : Host.Outcome State Fault Refusal → Host.Outcome State Fault Refusal
  | .next t => .next (f t)
  | .fault r => .fault r
  | .refused r => .refused r

/-- The operand bytes lie in Memory, and so does the operand itself (30_encoding.md R66). -/
def OperandReadable (m : Operand) (s : State) : Prop :=
  match m with
  | .reg _ => True
  | .mem a i => s.pc + 2 ≤ 0x10000 ∧ effAddr a i s ≤ 0xFFFF

/-- What the operand multiplexer reads (30_encoding.md R65, R67). -/
def operandValue (m : Operand) (s : State) : Byte :=
  match m with
  | .reg r => s.reg r
  | .mem a i => s.mem.read (effAddr a i s)

/-- pc past the operand bytes (30_encoding.md R66). -/
def pastOperand (m : Operand) (s : State) : State :=
  match m with
  | .reg _ => s
  | .mem _ _ => { s with pc := s.pc + 2 }

/-- pc past the operand bytes, and `v` written to the operand's location (30_encoding.md R68). -/
def putOperand (m : Operand) (v : Byte) (s : State) : State :=
  match m with
  | .reg r => s.setReg r v
  | .mem a i => { s with pc := s.pc + 2, mem := s.mem.write (effAddr a i s) v }

/-- Z and N of an 8-bit result given as a number below 256 (10_state.md R25). -/
def withZN (r : Nat) (s : State) : State := { s with zf := decide (r = 0), nf := decide (128 ≤ r) }

/-- `n` executions of one instruction, one after the other, stopping at the first that does not complete. -/
def execTimes : Nat → Instr → State → Host.Outcome State Fault Refusal
  | 0, _, s => .next s
  | k + 1, i, s =>
    match exec i s with
    | .next t => execTimes k i t
    | o => o

/-- The operand register of a register form. -/
def operandReg : Operand → List Reg
  | .reg r => [r]
  | .mem _ _ => []

/-- The index register of an indexed form (10_state.md R20: index 0 is no register). -/
def indexReg : Index → List Reg
  | .none => []
  | .x => [.x]
  | .y => [.y]
  | .z => [.z]

/-- The registers a mode operand reads when it is read: the selected register, or the index register. -/
def operandReads : Operand → List Reg
  | .reg r => [r]
  | .mem _ i => indexReg i

/-- The registers an instruction reads (10_state.md R21). -/
def regsRead : Instr → List Reg
  | .nopLow _ => []
  | .nopGap _ => []
  | .nopHigh _ => []
  | .str r _ => [r]
  | .strM _ i => .a :: indexReg i
  | .lod _ _ => []
  | .lodM _ i => indexReg i
  | .lodImm _ _ => []
  | .psh r => [r]
  | .pll _ => []
  | .jmp _ => []
  | .cal _ => []
  | .rtn _ => []
  | .trs _ s => [s]
  | .inc m => operandReads m
  | .dec m => operandReads m
  | .shl m => operandReads m
  | .shr m => operandReads m
  | .rol m => operandReads m
  | .ror m => operandReads m
  | .not m => operandReads m
  | .brc _ _ => []
  | .brn _ _ => []
  | .set _ => []
  | .clr _ => []
  | .add m => .a :: operandReads m
  | .sub m => .a :: operandReads m
  | .and m => .a :: operandReads m
  | .ior m => .a :: operandReads m
  | .xor m => .a :: operandReads m
  | .cmp m => .a :: operandReads m

/-- The registers an instruction writes (10_state.md R21). -/
def regsWritten : Instr → List Reg
  | .nopLow _ => []
  | .nopGap _ => []
  | .nopHigh _ => []
  | .str _ _ => []
  | .strM _ _ => []
  | .lod r _ => [r]
  | .lodM _ _ => [.a]
  | .lodImm r _ => [r]
  | .psh _ => []
  | .pll r => [r]
  | .jmp _ => []
  | .cal _ => []
  | .rtn _ => []
  | .trs d _ => [d]
  | .inc m => operandReg m
  | .dec m => operandReg m
  | .shl m => operandReg m
  | .shr m => operandReg m
  | .rol m => operandReg m
  | .ror m => operandReg m
  | .not m => operandReg m
  | .brc _ _ => []
  | .brn _ _ => []
  | .set _ => []
  | .clr _ => []
  | .add _ => [.a]
  | .sub _ => [.a]
  | .and _ => [.a]
  | .ior _ => [.a]
  | .xor _ => [.a]
  | .cmp _ => []

/-- The flags an instruction writes (10_state.md R26). -/
def flagsWritten : Instr → List CondFlag
  | .nopLow _ => []
  | .nopGap _ => []
  | .nopHigh _ => []
  | .str _ _ => []
  | .strM _ _ => []
  | .lod _ _ => [.z, .n]
  | .lodM _ _ => []
  | .lodImm _ _ => []
  | .psh _ => []
  | .pll _ => []
  | .jmp _ => []
  | .cal _ => []
  | .rtn _ => []
  | .trs _ _ => []
  | .inc _ => [.z, .n, .c]
  | .dec _ => [.z, .n, .c]
  | .shl _ => [.z, .n, .c]
  | .shr _ => [.z, .n, .c]
  | .rol _ => [.z, .n, .c]
  | .ror _ => [.z, .n, .c]
  | .not _ => [.z, .n]
  | .brc _ _ => []
  | .brn _ _ => []
  | .set f => [f]
  | .clr f => [f]
  | .add _ => [.z, .n, .c, .v]
  | .sub _ => [.z, .n, .c, .v]
  | .and _ => [.z, .n]
  | .ior _ => [.z, .n]
  | .xor _ => [.z, .n]
  | .cmp _ => [.z, .n, .c]

/-- The flags an instruction reads: "Only BRC and BRN read the flags" (10_state.md R26). -/
def flagsRead : Instr → List CondFlag
  | .brc f _ => [f]
  | .brn f _ => [f]
  | _ => []

/-- The location a memory operand names. -/
def operandAddr (m : Operand) (s : State) : Option Nat :=
  match m with
  | .reg _ => none
  | .mem a i => some (effAddr a i s)

/-- The one Memory address an instruction stores to, if it stores (20_memory.md R52). -/
def storeAddr (i : Instr) (s : State) : Option Nat :=
  match i with
  | .str _ a => some a.toNat
  | .strM a ix => some (effAddr a ix s)
  | .inc m => operandAddr m s
  | .dec m => operandAddr m s
  | .shl m => operandAddr m s
  | .shr m => operandAddr m s
  | .rol m => operandAddr m s
  | .ror m => operandAddr m s
  | .not m => operandAddr m s
  | _ => none

/-- PSH, PLL, CAL, RTN: the only instructions that reach the stack buffer (10_state.md R28). -/
def usesStack : Instr → Bool
  | .psh _ => true
  | .pll _ => true
  | .cal _ => true
  | .rtn _ => true
  | _ => false

/-- The stack bytes an instruction stores to (20_memory.md R47, R49). -/
def stackStores (i : Instr) (s : State) : List Nat :=
  match i with
  | .psh _ => [s.sp.toNat]
  | .cal _ => [s.sp.toNat, s.sp.toNat + 1]
  | _ => []

/-- The instructions that may overwrite pc (10_state.md R22). -/
def transfersControl : Instr → Bool
  | .jmp _ => true
  | .cal _ => true
  | .rtn _ => true
  | .brc _ _ => true
  | .brn _ _ => true
  | _ => false

/-- The fault of an operand fetch of `n` bytes at pc (60_exceptions.md R130): OutOfBounds at the first address above
0xFFFF. -/
def operandFault (n : Nat) (s : State) : Option Fault :=
  if s.pc + n > 0x10000 then some (.outOfBounds (max s.pc 0x10000)) else none

/-- The fault of an indexed address (60_exceptions.md R130): OutOfBounds at the sum. -/
def indexFault (a : Addr) (i : Index) (s : State) : Option Fault :=
  if effAddr a i s > 0xFFFF then some (.outOfBounds (effAddr a i s)) else none

/-- The fault of a memory operand: operand fetch first, then the indexed address (60_exceptions.md R134). -/
def memFault (a : Addr) (i : Index) (s : State) : Option Fault := (operandFault 2 s).or (indexFault a i s)

/-- The fault of a mode operand; a register form has none. -/
def modeFault (m : Operand) (s : State) : Option Fault :=
  match m with
  | .reg _ => none
  | .mem a i => memFault a i s

/-- The fault, if any, that an instruction raises in a state (60_exceptions.md R130), the first in the order of R134. -/
def expectedFault (i : Instr) (s : State) : Option Fault :=
  match i with
  | .nopLow _ => none
  | .nopGap _ => none
  | .nopHigh _ => none
  | .str _ _ => operandFault 2 s
  | .strM a ix => memFault a ix s
  | .lod _ _ => operandFault 2 s
  | .lodM a ix => memFault a ix s
  | .lodImm _ _ => operandFault 1 s
  | .psh _ => if s.sp = 255 then some (.stackOverflow s.sp) else none
  | .pll _ => if s.sp = 0 then some (.stackUnderflow s.sp) else none
  | .jmp _ => operandFault 2 s
  | .cal _ => (operandFault 2 s).or (if 254 ≤ s.sp.toNat then some (.stackOverflow s.sp) else none)
  | .rtn _ => if s.sp.toNat ≤ 1 then some (.stackUnderflow s.sp) else none
  | .trs _ _ => none
  | .inc m => modeFault m s
  | .dec m => modeFault m s
  | .shl m => modeFault m s
  | .shr m => modeFault m s
  | .rol m => modeFault m s
  | .ror m => modeFault m s
  | .not m => modeFault m s
  | .brc _ _ => operandFault 2 s
  | .brn _ _ => operandFault 2 s
  | .set _ => none
  | .clr _ => none
  | .add m => modeFault m s
  | .sub m => modeFault m s
  | .and m => modeFault m s
  | .ior m => modeFault m s
  | .xor m => modeFault m s
  | .cmp m => modeFault m s

/-- The reserved opcodes (40_nop.md R80). -/
def Reserved (op : Byte) : Prop := op.toNat ≤ 0x3F ∨ (0xA8 ≤ op.toNat ∧ op.toNat ≤ 0xAF) ∨ 0xF0 ≤ op.toNat

/-- The instruction an assembler emits for the disassembler's text: a reserved opcode prints as NOP and 0x5F as RTN, and
the assembler emits 0x00 and 0x5E (30_encoding.md R75, R76). -/
def canonical : Instr → Instr
  | .nopLow _ => .nopLow 0x00
  | .nopGap _ => .nopLow 0x00
  | .nopHigh _ => .nopLow 0x00
  | .rtn _ => .rtn 0x5E
  | i => i

end Sys2Proof.Spec

open Sys2Proof Sys2Proof.Machine Sys2Proof.Spec

/-! ### Encoding and decoding -/

/-- 30_encoding.md R62, R64, R70, R75: what the encoder writes for a well-formed instruction, with every operand at every
value, the decoder reads back, leaving the bytes after it. (R64's sub-ranges and R75 are the spec's own decisions D4,
D5, D27; that a NOP or RTN term keeps its opcode byte is the model's choice, log 21.) -/
def Obligations.EncodedInstructionDecodesBack : Prop :=
  ∀ (i : Instr) (rest : List Byte), i.wellFormed = true → decode (encode i ++ rest) = .ok (i, rest)

/-- The other direction: whatever the decoder reads is well-formed, and encoding it gives the bytes read. That 0x5F and a
reserved opcode other than 0x00 come back as the same byte, where R75's assembler emits 0x5E and 0x00, is the model's
choice: the term keeps its opcode byte (log 21). -/
def Obligations.DecodedInstructionEncodesBack : Prop :=
  ∀ (bytes rest : List Byte) (i : Instr), decode bytes = .ok (i, rest) → i.wellFormed = true ∧ encode i ++ rest = bytes

/-- 30_encoding.md R70, R71: the opcode byte alone fixes the length, every byte decodes once its operand bytes are there,
and a byte list is rejected only because it ends before them. -/
def Obligations.DecoderRejectsOnlyTruncation : Prop :=
  ∀ (op : Byte) (rest : List Byte),
    (opLength op ≤ rest.length + 1 →
      ∃ i, decode (op :: rest) = .ok (i, rest.drop (opLength op - 1)) ∧ i.length = opLength op) ∧
    (rest.length + 1 < opLength op → decode (op :: rest) = .error (.truncated op))

/-- The opcode table (R64): each opcode lies in exactly one row, and decodes to an instruction of that row's mnemonic and
length. -/
def Obligations.DecoderFollowsOpcodeTable : Prop :=
  ∀ (op imm : Byte) (a : Addr), ∃ row, opcodeTable.filter (fun row => row.covers op) = [row] ∧
    (decodeOpcode op imm a).mnemonic = row.mnemonic ∧ opLength op = row.format.length op

/-- Words written out from R62's fields: 0x43 12 34 is STR Z, $1234; 0x46 20 00 is STR.M $2000, Y; 0x52 2A is LOD Y, #$2A;
0x64 is TRS A, X; 0x75 10 FF is INC $10FF, X; 0xB2 12 34 is BRC CF, $1234; 0xEC 10 00 is CMP $1000; 0x5F is RTN;
0xF3 is a reserved opcode. -/
def Obligations.SampleWordsDecode : Prop :=
  decode [0x43, 0x12, 0x34] = .ok (.str .z 0x1234, []) ∧
  decode [0x46, 0x20, 0x00] = .ok (.strM 0x2000 .y, []) ∧
  decode [0x52, 0x2A] = .ok (.lodImm .y 0x2A, []) ∧
  decode [0x64] = .ok (.trs .a .x, []) ∧
  decode [0x75, 0x10, 0xFF] = .ok (.inc (.mem 0x10FF .x), []) ∧
  decode [0xB2, 0x12, 0x34] = .ok (.brc .c 0x1234, []) ∧
  decode [0xEC, 0x10, 0x00] = .ok (.cmp (.mem 0x1000 .none), []) ∧
  decode [0x5F] = .ok (.rtn 0x5F, []) ∧
  decode [0xF3] = .ok (.nopHigh 0xF3, [])

/-- 30_encoding.md R73 to R77 (the spec's own syntax, D27): assembling the disassembler's text of an instruction gives
the bytes of the instruction it stands for. They lie at address 0 because text without .org starts there, which is the
model's choice (log 17). -/
def Obligations.DisassembledTextAssemblesBack : Prop :=
  ∀ i : Instr, i.wellFormed = true → assemble (disassemble i) = some (cellsAt 0 (encode (canonical i)))

/-! ### The step -/

/-- 30_encoding.md R60, R61; 60_exceptions.md R141: when the bytes at pc decode to an instruction, a step is its
execution with pc just past the opcode, and sets STATUS = OK when it completes. -/
def Obligations.StepRunsDecodedInstruction : Prop :=
  ∀ (s : State) (i : Instr) (rest : List Byte), decode (fetchWindow s) = .ok (i, rest) →
    step s = mapNext (fun t => { t with status := .ok }) (exec i { s with pc := s.pc + 1 })

/-- The same for an instruction whose encoding stands in Memory at pc (30_encoding.md R60; 20_memory.md R59). -/
def Obligations.StepRunsEncodedInstruction : Prop :=
  ∀ (s : State) (i : Instr), i.wellFormed = true → s.pc + (encode i).length ≤ 0x10000 →
    (∀ k (h : k < (encode i).length), s.mem.read (s.pc + k) = (encode i)[k]) →
    step s = mapNext (fun t => { t with status := .ok }) (exec i { s with pc := s.pc + 1 })

/-- 10_state.md R23; 30_encoding.md R69; 20_memory.md R43 (decisions D14 to D16): the opcode fetch at pc = 0x10000, and any
instruction whose operand bytes would extend past 0xFFFF, raise OutOfBounds(0x10000). -/
def Obligations.FetchPastTopFaults : Prop :=
  ∀ s : State,
    (s.pc = 0x10000 → step s = .fault (.outOfBounds 0x10000)) ∧
    (s.pc ≤ 0xFFFF → s.pc + opLength (s.mem.read s.pc) > 0x10000 → step s = .fault (.outOfBounds 0x10000))

/-- 30_encoding.md R71: no instruction is refused; "the ISA has no illegal-instruction trap". -/
def Obligations.StepNeverRefuses : Prop := ∀ (s : State) (r : Refusal), step s ≠ .refused r

/-- Every step keeps the invariant: pc at most 0x10000 (10_state.md R22), Memory and the stack buffer arrays of their
size in canonical form (R28, R29; the form is the model's: log 16). -/
def Obligations.StepKeepsInvariant : Prop := ∀ s t : State, s.Inv → step s = .next t → t.Inv

/-- The state after construction meets the invariant. -/
def Obligations.ResetMeetsInvariant : Prop := State.reset.Inv

/-- 60_exceptions.md R130, R134 (decisions D14, D17, D19, D20): an execution raises exactly the fault of the table, with
the priority operand fetch, indexed address, stack; where there is none it completes. -/
def Obligations.ExecutionFaultsExactlyAsListed : Prop :=
  ∀ (i : Instr) (s : State),
    (∀ f, expectedFault i s = some f → exec i s = .fault f) ∧
    (expectedFault i s = none → ∃ t, exec i s = .next t)

/-- 10_state.md, the status output; 60_exceptions.md, CYCLE (decision D19): the status output changes nothing an
instruction computes, it is not latched, and a CYCLE that completes reports STATUS = OK with FAULT_CODE 0. -/
def Obligations.StatusIsOutputOnly : Prop :=
  (∀ (s : State) (st : Status), step { s with status := st } = step s) ∧
  (∀ s t : State, step s = .next t →
    hostOp .cycle s = (.status .ok, t) ∧ t.status = .ok ∧ t.status.bit = 0 ∧ t.status.faultCode = 0)

/-! ### Frames of all instructions -/

/-- 10_state.md R21, the w column: a register an instruction is not listed to write keeps its value. -/
def Obligations.OnlyListedRegistersChange : Prop :=
  ∀ (i : Instr) (s t : State) (r : Reg), exec i s = .next t → r ∉ regsWritten i → t.reg r = s.reg r

/-- 10_state.md R21, the r column: a register an instruction is not listed to read does not affect it. -/
def Obligations.OnlyListedRegistersMatter : Prop :=
  ∀ (i : Instr) (s : State) (r : Reg) (v : Byte), r ∉ regsRead i →
    exec i (s.setReg r v) = mapNext (fun t => if r ∈ regsWritten i then t else t.setReg r v) (exec i s)

/-- 10_state.md R26 (decision D2): a flag an instruction is not listed to write keeps its value. -/
def Obligations.OnlyListedFlagsChange : Prop :=
  ∀ (i : Instr) (s t : State) (f : CondFlag), exec i s = .next t → f ∉ flagsWritten i → t.flag f = s.flag f

/-- 10_state.md R26 (decision D2), "Only BRC and BRN read the flags": a flag an instruction does not read does not affect
it; in particular no arithmetic takes a carry in (D10). -/
def Obligations.OnlyBranchesReadFlags : Prop :=
  ∀ (i : Instr) (s : State) (f : CondFlag) (b : Bool), f ∉ flagsRead i →
    exec i (s.setFlag f b) = mapNext (fun t => if f ∈ flagsWritten i then t else t.setFlag f b) (exec i s)

/-- 20_memory.md R42, R52, R56: an instruction changes no Memory byte but the one at the address it stores to, which for
STR is its operand and for STR.M and the memory forms of INC to NOT the effective address; the others change none. What
STR and STR.M store reads back. -/
def Obligations.OnlyStoredByteChanges : Prop :=
  ∀ (i : Instr) (s t : State), s.Inv → exec i s = .next t →
    (∀ addr, storeAddr i s ≠ some addr → t.mem.read addr = s.mem.read addr) ∧
    (∀ r a, i = .str r a → t.mem.read a.toNat = s.reg r) ∧
    (∀ a ix, i = .strM a ix → t.mem.read (effAddr a ix s) = s.a)

/-- 20_memory.md R46, R47, R49 (decision D17): PSH changes only the stack byte at sp, CAL only those at sp and sp + 1, and
no other instruction changes one. -/
def Obligations.OnlyPushedStackBytesChange : Prop :=
  ∀ (i : Instr) (s t : State), s.Inv → exec i s = .next t →
    ∀ k, k ∉ stackStores i s → t.stk.read k = s.stk.read k

/-- 10_state.md R28: the stack buffer is 256 bytes and separate from Memory. An instruction other than PSH, PLL, CAL and
RTN neither changes sp and the stack buffer nor depends on it, and those four neither change Memory nor depend on
it. -/
def Obligations.OnlyStackInstructionsReachStack : Prop :=
  (∀ (i : Instr) (s : State) (k : Memory) (p : Byte), usesStack i = false →
    exec i { s with stk := k, sp := p } = mapNext (fun t => { t with stk := k, sp := p }) (exec i s)) ∧
  (∀ (i : Instr) (s t : State), usesStack i = false → exec i s = .next t → t.stk = s.stk ∧ t.sp = s.sp) ∧
  (∀ (i : Instr) (s : State) (m : Memory), usesStack i = true →
    exec i { s with mem := m } = mapNext (fun t => { t with mem := m }) (exec i s)) ∧
  (∀ (i : Instr) (s t : State), usesStack i = true → exec i s = .next t → t.mem = s.mem) ∧
  (∀ (i : Instr) (s t : State), s.Inv → exec i s = .next t →
    ∀ k, 256 ≤ k → t.stk.read k = s.stk.read k)

/-- 30_encoding.md R61: an instruction that does not transfer control ends with pc = p0 + its length, and no execution
touches the status output (10_state.md R31). -/
def Obligations.PcAdvancesByLength : Prop :=
  ∀ (i : Instr) (s t : State), exec i s = .next t →
    (transfersControl i = false → t.pc + 1 = s.pc + i.length) ∧ t.status = s.status

/-! ### NOP, loads and stores -/

/-- 40_nop.md R80: the reserved opcodes execute as a one-byte NOP: pc advances and nothing else changes. Only the opcode
fetch can fault, and the assembler emits 0x00. R80's ranges hold 88 opcodes, not the 112 its prose counts (log 20). The
clause encode i = [op] is the model's choice: the term keeps its opcode byte (log 21). -/
def Obligations.ReservedOpcodesAreNop : Prop :=
  (∀ s : State, s.pc ≤ 0xFFFF → Reserved (s.mem.read s.pc) → step s = .next { s with pc := s.pc + 1, status := .ok }) ∧
  (∀ s : State, s.pc = 0x10000 → step s = .fault (.outOfBounds 0x10000)) ∧
  (∀ (op : Byte) (rest : List Byte), Reserved op →
    ∃ i, decode (op :: rest) = .ok (i, rest) ∧ encode i = [op] ∧ i.mnemonic = "NOP" ∧ ∀ s, exec i s = .next s) ∧
  (∀ (op : Byte) (s : State),
    exec (.nopLow op) s = .next s ∧ exec (.nopGap op) s = .next s ∧ exec (.nopHigh op) s = .next s) ∧
  ((List.finRange 256).filter fun n => decide (n.val ≤ 0x3F ∨ (0xA8 ≤ n.val ∧ n.val ≤ 0xAF) ∨ 0xF0 ≤ n.val)).length = 88 ∧
  assemble ".org $0000\nNOP" = some [(0, 0x00)]

/-- 41_load_store.md R82: STR r, $a is the three bytes 0x40 + r, a[15:8], a[7:0]; it writes x[r] to M[a] and moves pc past
the operand; no flag; the only fault is that of its operand fetch; a Cycle stores to any a, also one of the
instruction's own bytes; `STR A, $a` does what `STR.M $a` does. -/
def Obligations.StrStoresRegister : Prop :=
  (∀ (r : Reg) (hi lo : Byte),
    decode [BitVec.ofNat 8 (0x40 + regNumber r), hi, lo] = .ok (.str r (joinBytes hi lo), [])) ∧
  (∀ (r : Reg) (a : Addr) (s : State), s.pc + 2 ≤ 0x10000 →
    exec (.str r a) s = .next { s with pc := s.pc + 2, mem := s.mem.write a.toNat (s.reg r) }) ∧
  (∀ (r : Reg) (a : Addr) (s : State), s.pc ≤ 0x10000 → s.pc + 2 > 0x10000 →
    exec (.str r a) s = .fault (.outOfBounds 0x10000)) ∧
  (∀ (r : Reg) (a : Addr) (s : State), s.Inv → s.pc + 3 ≤ 0x10000 →
    (∀ k (h : k < 3), s.mem.read (s.pc + k) = (encode (.str r a))[k]) →
    ∃ t, step s = .next t ∧ t = { s with pc := s.pc + 3, mem := t.mem, status := .ok } ∧
      t.mem.read a.toNat = s.reg r ∧ ∀ b, b ≠ a.toNat → t.mem.read b = s.mem.read b) ∧
  (∀ (a : Addr) (s : State), exec (.str .a a) s = exec (.strM a .none) s)

/-- 41_load_store.md, STR.M and LOD.M (decisions D3, D13): the accumulator to and from the effective address; pc past the
operand; no flag. -/
def Obligations.AccumulatorMemoryMoves : Prop :=
  ∀ (a : Addr) (i : Index) (s : State), s.pc + 2 ≤ 0x10000 → effAddr a i s ≤ 0xFFFF →
    exec (.strM a i) s = .next { s with pc := s.pc + 2, mem := s.mem.write (effAddr a i s) s.a } ∧
    exec (.lodM a i) s = .next { s with pc := s.pc + 2, a := s.mem.read (effAddr a i s) }

/-- 30_encoding.md, the address decoder; 70_reset_and_hazards.md, the indexed-address hazard (decision D12): a sum above
0xFFFF raises OutOfBounds with that sum, in every instruction with a memory operand, and nothing wraps. -/
def Obligations.IndexedAddressNeverWraps : Prop :=
  ∀ (a : Addr) (i : Index) (s : State), s.pc + 2 ≤ 0x10000 → a.toNat + s.indexValue i > 0xFFFF →
    (∀ ins ∈ [Instr.strM a i, .lodM a i, .inc (.mem a i), .dec (.mem a i), .shl (.mem a i), .shr (.mem a i),
        .rol (.mem a i), .ror (.mem a i), .not (.mem a i), .add (.mem a i), .sub (.mem a i), .and (.mem a i),
        .ior (.mem a i), .xor (.mem a i), .cmp (.mem a i)],
      exec ins s = .fault (.outOfBounds (a.toNat + s.indexValue i)))

/-- 41_load_store.md, LOD r, $a (decision D3): x[r] takes M[a], Z and N follow the byte, C and V stay. -/
def Obligations.LodLoadsAndSetsZN : Prop :=
  ∀ (r : Reg) (a : Addr) (s : State), s.pc + 2 ≤ 0x10000 →
    exec (.lod r a) s =
      .next (withZN (s.mem.read a.toNat).toNat { s.setReg r (s.mem.read a.toNat) with pc := s.pc + 2 })

/-- 41_load_store.md, LOD r, #n (decision D3): x[r] takes the immediate, pc moves past it, no flag; OutOfBounds(0x10000)
when the immediate lies past the top. -/
def Obligations.LodImmediateLoads : Prop :=
  ∀ (r : Reg) (n : Byte) (s : State),
    (s.pc + 1 ≤ 0x10000 → exec (.lodImm r n) s = .next { s.setReg r n with pc := s.pc + 1 }) ∧
    (s.pc = 0x10000 → exec (.lodImm r n) s = .fault (.outOfBounds 0x10000))

/-! ### Stack and control transfer -/

/-- 42_stack_control.md R90: PSH r is the byte 0x54 + r; it stores x[r] at Stk[sp] and increments sp; no register and no
flag changes; StackOverflow(sp) when sp = 255, while sp = 254 succeeds and leaves 255 (the bound is the spec's D17). -/
def Obligations.PshPushesRegister : Prop :=
  (∀ r : Reg, decode [BitVec.ofNat 8 (0x54 + regNumber r)] = .ok (.psh r, [])) ∧
  (∀ (r : Reg) (s : State), s.sp ≠ 255 →
    exec (.psh r) s = .next { s with stk := s.stk.write s.sp.toNat (s.reg r), sp := BitVec.ofNat 8 (s.sp.toNat + 1) }) ∧
  (∀ (r : Reg) (s : State), s.Inv → (s.stk.write s.sp.toNat (s.reg r)).read s.sp.toNat = s.reg r) ∧
  (∀ (r : Reg) (s : State), s.sp = 255 → exec (.psh r) s = .fault (.stackOverflow 255))

/-- 42_stack_control.md R91: PLL r is the byte 0x58 + r; it decrements sp and loads x[r] from Stk there; the byte stays in
the stack buffer; no flag; StackUnderflow(sp) when sp = 0 (the bound is the spec's D17). -/
def Obligations.PllPullsRegister : Prop :=
  (∀ r : Reg, decode [BitVec.ofNat 8 (0x58 + regNumber r)] = .ok (.pll r, [])) ∧
  (∀ (r : Reg) (s : State), s.sp ≠ 0 →
    exec (.pll r) s = .next { s.setReg r (s.stk.read (s.sp.toNat - 1)) with sp := BitVec.ofNat 8 (s.sp.toNat - 1) }) ∧
  (∀ (r : Reg) (s : State), s.sp = 0 → exec (.pll r) s = .fault (.stackUnderflow 0))

/-- 42_stack_control.md R92: JMP is 0x5C, a[15:8], a[7:0]; pc takes the target and nothing else changes;
OutOfBounds(0x10000) when the operand runs past the top; `JMP $p0` leaves the state unchanged, Cycle after Cycle. -/
def Obligations.JmpSetsPc : Prop :=
  (∀ hi lo : Byte, decode [0x5C, hi, lo] = .ok (.jmp (joinBytes hi lo), [])) ∧
  (∀ (a : Addr) (s : State), s.pc + 2 ≤ 0x10000 → exec (.jmp a) s = .next { s with pc := a.toNat }) ∧
  (∀ (a : Addr) (s : State), s.pc ≤ 0x10000 → s.pc + 2 > 0x10000 → exec (.jmp a) s = .fault (.outOfBounds 0x10000)) ∧
  (∀ s : State, s.atSelfLoop = true → step s = .next { s with status := .ok })

/-- 42_stack_control.md, CAL; 60_exceptions.md, the priority of faults (decisions D17, D20, D26): with p0 the opcode's
address, CAL pushes p0 + 2 big-endian and jumps; OutOfBounds when the operand runs past the top, whatever sp is; else
StackOverflow when sp >= 254. -/
def Obligations.CalPushesReturnAddress : Prop :=
  ∀ (a : Addr) (s : State) (p0 : Nat), s.pc = p0 + 1 → p0 ≤ 0xFFFF →
    (p0 ≤ 0xFFFD → s.sp.toNat ≤ 253 →
      exec (.cal a) s = .next { s with
        pc := a.toNat
        sp := BitVec.ofNat 8 (s.sp.toNat + 2)
        stk := (s.stk.write s.sp.toNat (BitVec.ofNat 8 ((p0 + 2) / 256))).write (s.sp.toNat + 1)
          (BitVec.ofNat 8 ((p0 + 2) % 256)) }) ∧
    (0xFFFE ≤ p0 → exec (.cal a) s = .fault (.outOfBounds 0x10000)) ∧
    (p0 ≤ 0xFFFD → 254 ≤ s.sp.toNat → exec (.cal a) s = .fault (.stackOverflow s.sp))

/-- 42_stack_control.md R95: RTN is 0x5E or 0x5F (the assembler emits 0x5E); it retreats sp by 2 and takes pc from the two
bytes there, high byte first, whatever pushed them, so pc is never 0x10000; no flag; StackUnderflow(sp) when sp < 2 (D17). -/
def Obligations.RtnPullsPc : Prop :=
  decode [0x5E] = .ok (.rtn 0x5E, []) ∧ decode [0x5F] = .ok (.rtn 0x5F, []) ∧ assemble ".org $0000\nRTN" = some [(0, 0x5E)] ∧
  (∀ (op : Byte) (s : State), 2 ≤ s.sp.toNat →
    exec (.rtn op) s = .next { s with
      pc := 256 * (s.stk.read (s.sp.toNat - 2)).toNat + (s.stk.read (s.sp.toNat - 1)).toNat
      sp := BitVec.ofNat 8 (s.sp.toNat - 2) }) ∧
  (∀ (op : Byte) (s t : State), exec (.rtn op) s = .next t → t.pc ≤ 0xFFFF) ∧
  (∀ (op : Byte) (s : State), s.sp.toNat < 2 → exec (.rtn op) s = .fault (.stackUnderflow s.sp))

/-- 42_stack_control.md, CAL followed by RTN (derived in the spec): if the called code leaves sp and the two stack bytes as
it found them, RTN restores sp and sets pc to p0 + 2. -/
def Obligations.CalThenRtnResumes : Prop :=
  ∀ (a : Addr) (op : Byte) (s : State) (p0 : Nat), s.Inv → s.pc = p0 + 1 → p0 ≤ 0xFFFD → s.sp.toNat ≤ 253 →
    ∃ t, exec (.cal a) s = .next t ∧
      ∀ u : State, u.sp = t.sp → (∀ k, s.sp.toNat ≤ k → k ≤ s.sp.toNat + 1 → u.stk.read k = t.stk.read k) →
        ∃ w, exec (.rtn op) u = .next w ∧ w.pc = p0 + 2 ∧ w.sp = s.sp

/-- 20_memory.md, the byte stack without width tags (derived in the spec): a push then a pull moves the byte and restores
sp; two byte pushes then RTN jump to high * 256 + low; and CAL then two byte pulls give the return address, low byte
first. -/
def Obligations.StackHasNoWidthTags : Prop :=
  ∀ s : State, s.Inv →
    (∀ r q : Reg, s.sp.toNat ≤ 254 → ∃ t u, exec (.psh r) s = .next t ∧ exec (.pll q) t = .next u ∧
      u.reg q = s.reg r ∧ u.sp = s.sp) ∧
    (∀ (r q : Reg) (op : Byte), s.sp.toNat ≤ 253 → ∃ t u w, exec (.psh r) s = .next t ∧ exec (.psh q) t = .next u ∧
      exec (.rtn op) u = .next w ∧ w.pc = 256 * (s.reg r).toNat + (s.reg q).toNat ∧ w.sp = s.sp) ∧
    (∀ a : Addr, s.sp.toNat ≤ 253 → s.pc + 2 ≤ 0x10000 → ∃ t u w, exec (.cal a) s = .next t ∧
      exec (.pll .x) t = .next u ∧ exec (.pll .y) u = .next w ∧
      256 * w.y.toNat + w.x.toNat = s.pc + 1 ∧ w.sp = s.sp)

/-! ### Register transfer and unary ALU -/

/-- 43_transfer_unary.md R100: TRS d, s is the byte 0x60 + 4*s + d; x[d] takes x[s]; the source, the flags and everything
else stay; no fault. -/
def Obligations.TrsCopiesRegister : Prop :=
  (∀ d r : Reg, decode [BitVec.ofNat 8 (0x60 + 4 * regNumber r + regNumber d)] = .ok (.trs d r, [])) ∧
  (∀ (d r : Reg) (s : State), exec (.trs d r) s = .next (s.setReg d (s.reg r))) ∧
  (∀ (d r : Reg) (s : State), (s.setReg d (s.reg r)).reg r = s.reg r ∧ (s.setReg d (s.reg r)).reg d = s.reg r)

/-- 43_transfer_unary.md, INC and DEC (decision D7): v + 1 and v - 1 modulo 256 back to the same location, Z and N from the
result, C the carry out of 0xFF and the borrow from 0x00, V unchanged; every operand form. -/
def Obligations.IncDecResults : Prop :=
  ∀ (m : Operand) (s : State), OperandReadable m s →
    let v := (operandValue m s).toNat
    exec (.inc m) s = .next { withZN ((v + 1) % 256) (putOperand m (BitVec.ofNat 8 ((v + 1) % 256)) s) with
      cf := decide (v = 255) } ∧
    exec (.dec m) s = .next { withZN ((v + 255) % 256) (putOperand m (BitVec.ofNat 8 ((v + 255) % 256)) s) with
      cf := decide (v = 0) }

/-- 43_transfer_unary.md, SHL and SHR (decision D7): logical shifts by one, C the bit shifted out, V unchanged. -/
def Obligations.ShiftResults : Prop :=
  ∀ (m : Operand) (s : State), OperandReadable m s →
    let v := (operandValue m s).toNat
    exec (.shl m) s = .next { withZN (2 * v % 256) (putOperand m (BitVec.ofNat 8 (2 * v % 256)) s) with
      cf := decide (128 ≤ v) } ∧
    exec (.shr m) s = .next { withZN (v / 2) (putOperand m (BitVec.ofNat 8 (v / 2)) s) with
      cf := decide (v % 2 = 1) }

/-- 43_transfer_unary.md, ROL, ROR and NOT (decision D7): 8-bit rotates by one, the carry taking no part and receiving the
bit that went round; the complement, which leaves C; V unchanged. -/
def Obligations.RotateAndNotResults : Prop :=
  ∀ (m : Operand) (s : State), OperandReadable m s →
    let v := (operandValue m s).toNat
    let l := 2 * v % 256 + v / 128
    let r := v / 2 + 128 * (v % 2)
    exec (.rol m) s = .next { withZN l (putOperand m (BitVec.ofNat 8 l) s) with cf := decide (128 ≤ v) } ∧
    exec (.ror m) s = .next { withZN r (putOperand m (BitVec.ofNat 8 r) s) with cf := decide (v % 2 = 1) } ∧
    exec (.not m) s = .next (withZN (255 - v) (putOperand m (BitVec.ofNat 8 (255 - v)) s))

/-- 95_test_vectors.md L1-5, "Rotate idempotence": eight ROLs, or eight RORs, of a register return the original value. -/
def Obligations.EightRotatesRestore : Prop :=
  ∀ (r : Reg) (s : State),
    (∃ t, execTimes 8 (.rol (.reg r)) s = .next t ∧ t.reg r = s.reg r) ∧
    (∃ t, execTimes 8 (.ror (.reg r)) s = .next t ∧ t.reg r = s.reg r)

/-! ### Flags and branches -/

/-- 44_flags_branch.md, BRC and BRN (decision D16): the target when the flag is set (clear), else pc past the operand;
nothing else changes; the operand fetch faults whether or not the branch is taken. -/
def Obligations.BranchesFollowFlag : Prop :=
  ∀ (f : CondFlag) (a : Addr) (s : State),
    (s.pc + 2 ≤ 0x10000 →
      exec (.brc f a) s = .next { s with pc := if s.flag f then a.toNat else s.pc + 2 } ∧
      exec (.brn f a) s = .next { s with pc := if s.flag f then s.pc + 2 else a.toNat }) ∧
    (s.pc ≤ 0x10000 → s.pc + 2 > 0x10000 →
      exec (.brc f a) s = .fault (.outOfBounds 0x10000) ∧ exec (.brn f a) s = .fault (.outOfBounds 0x10000))

/-- 44_flags_branch.md R112, R113: SET f is the byte 0xB8 + f and CLR f the byte 0xBC + f; F[f] becomes true (false), the
other three flags and everything else stay; no fault; clearing a clear flag changes nothing; V is written by ADD, SUB,
SET VF and CLR VF alone. -/
def Obligations.SetAndClrWriteFlag : Prop :=
  (∀ f : CondFlag, decode [BitVec.ofNat 8 (0xB8 + flagNumber f)] = .ok (.set f, []) ∧
    decode [BitVec.ofNat 8 (0xBC + flagNumber f)] = .ok (.clr f, [])) ∧
  (∀ (f : CondFlag) (s : State), ∃ t, exec (.set f) s = .next t ∧ t = s.setFlag f true ∧ t.flag f = true ∧
    ∀ g, g ≠ f → t.flag g = s.flag g) ∧
  (∀ (f : CondFlag) (s : State), ∃ t, exec (.clr f) s = .next t ∧ t = s.setFlag f false ∧ t.flag f = false ∧
    (∀ g, g ≠ f → t.flag g = s.flag g) ∧ (s.flag f = false → t = s)) ∧
  (∀ (i : Instr) (s t : State), exec i s = .next t → t.flag .v ≠ s.flag .v →
    (∃ m, i = .add m) ∨ (∃ m, i = .sub m) ∨ i = .set .v ∨ i = .clr .v)

/-- 44_flags_branch.md, the conditions (derived in the spec; D9): after SUB or CMP, BRC CF is taken exactly when A was
below the operand, unsigned, and BRC ZF exactly when they were equal. -/
def Obligations.CompareThenBranch : Prop :=
  ∀ (m : Operand) (tgt : Addr) (s : State), OperandReadable m s →
    ∀ ins ∈ [Instr.cmp m, .sub m], ∃ t, exec ins s = .next t ∧
      (t.pc + 2 ≤ 0x10000 →
        exec (.brc .c tgt) t = .next { t with pc := if s.a.toNat < (operandValue m s).toNat then tgt.toNat else t.pc + 2 } ∧
        exec (.brc .z tgt) t = .next { t with pc := if s.a = operandValue m s then tgt.toNat else t.pc + 2 })

/-! ### Binary ALU -/

/-- 45_binary_alu.md, ADD (decisions D8, D10; the V formula is the spec's GK1): A takes the sum modulo 256; C is the carry
out of bit 7, V is ((a ^ r) & (b ^ r) & 0x80) != 0; no carry-in; every operand form. -/
def Obligations.AddResult : Prop :=
  ∀ (m : Operand) (s : State), OperandReadable m s →
    let a := s.a
    let b := operandValue m s
    let sum := a.toNat + b.toNat
    let r : Byte := BitVec.ofNat 8 (sum % 256)
    exec (.add m) s = .next { withZN (sum % 256) (pastOperand m s) with
      a := r, cf := decide (255 < sum), vf := ((a ^^^ r) &&& (b ^^^ r) &&& 0x80) != 0 }

/-- 45_binary_alu.md, SUB (decisions D8, D9, D10; the V formula is the spec's GK1): A takes the difference modulo 256; C is
the borrow a < b, V is ((a ^ b) & (a ^ r) & 0x80) != 0; no borrow-in. -/
def Obligations.SubResult : Prop :=
  ∀ (m : Operand) (s : State), OperandReadable m s →
    let a := s.a
    let b := operandValue m s
    let diff := (a.toNat + 256 - b.toNat) % 256
    let r : Byte := BitVec.ofNat 8 diff
    exec (.sub m) s = .next { withZN diff (pastOperand m s) with
      a := r, cf := decide (a.toNat < b.toNat), vf := ((a ^^^ b) &&& (a ^^^ r) &&& 0x80) != 0 }

/-- 45_binary_alu.md, AND, IOR and XOR (decision D8): the bitwise result in A, Z and N from it, C and V unchanged. -/
def Obligations.LogicResults : Prop :=
  ∀ (m : Operand) (s : State), OperandReadable m s →
    let b := operandValue m s
    exec (.and m) s = .next { withZN (s.a &&& b).toNat (pastOperand m s) with a := s.a &&& b } ∧
    exec (.ior m) s = .next { withZN (s.a ||| b).toNat (pastOperand m s) with a := s.a ||| b } ∧
    exec (.xor m) s = .next { withZN (s.a ^^^ b).toNat (pastOperand m s) with a := s.a ^^^ b }

/-- 45_binary_alu.md, CMP (decision D11, a deliberate extension of the source): Z, N and C as SUB writes them; A and V
unchanged. -/
def Obligations.CmpResult : Prop :=
  ∀ (m : Operand) (s : State), OperandReadable m s →
    let b := operandValue m s
    let diff := (s.a.toNat + 256 - b.toNat) % 256
    exec (.cmp m) s = .next { withZN diff (pastOperand m s) with cf := decide (s.a.toNat < b.toNat) }

/-- 45_binary_alu.md (GK1, general knowledge in the spec): the V that ADD and SUB leave says that the result, read as two's
complement, is not the exact sum or difference. -/
def Obligations.OverflowIsSignedOverflow : Prop :=
  ∀ (m : Operand) (s : State), OperandReadable m s →
    (∃ t, exec (.add m) s = .next t ∧
      (t.vf = true ↔ t.a.toInt ≠ s.a.toInt + (operandValue m s).toInt)) ∧
    (∃ t, exec (.sub m) s = .next t ∧
      (t.vf = true ↔ t.a.toInt ≠ s.a.toInt - (operandValue m s).toInt))

/-! ### Faults, host interface and reset -/

/-- 60_exceptions.md, the faults, roll-back and report (decisions D18, D19): a faulting CYCLE changes the status output
alone, which reports FAULT, FAULT_PC = p0, and FAULT_CODE and FAULT_INFO by the table of the faults: 1 and the address for
OutOfBounds, 2 and sp for StackOverflow, 3 and sp for StackUnderflow; and the same CYCLE again gives the same. -/
def Obligations.FaultingCycleOnlyReports : Prop :=
  ∀ (s : State) (f : Fault), step s = .fault f →
    hostOp .cycle s = (.status (.fault f s.pc), { s with status := .fault f s.pc }) ∧
    hostOp .cycle (hostOp .cycle s).2 = hostOp .cycle s ∧
    (hostOp .cycle s).2.status.bit = 1 ∧ (hostOp .cycle s).2.status.faultPc = some s.pc ∧
    (hostOp .cycle s).2.status.faultCode = f.code ∧ (hostOp .cycle s).2.status.faultInfo = some f.info ∧
    (∀ addr, f = .outOfBounds addr → f.code = 1 ∧ f.info = addr) ∧
    (∀ sp, f = .stackOverflow sp → f.code = 2 ∧ f.info = sp.toNat) ∧
    (∀ sp, f = .stackUnderflow sp → f.code = 3 ∧ f.info = sp.toNat)

/-- 60_exceptions.md, REACHED_END (decision D32): at pc = 0x10000 it returns true and sets pc to 0, then false until pc
gets there again; below, it returns false; nothing else changes but STATUS = OK (log 12, the model's own reading). -/
def Obligations.ReachedEndWrapsOnce : Prop :=
  ∀ s : State,
    (s.pc = 0x10000 → hostOp .reachedEnd s = (.bool true, { s with pc := 0, status := .ok })) ∧
    (s.pc < 0x10000 → hostOp .reachedEnd s = (.bool false, { s with status := .ok })) ∧
    (hostOp .reachedEnd (hostOp .reachedEnd s).2).1 = .bool false

/-- 60_exceptions.md, INSPECT and PEEK; 10_state.md, FLAGS (decisions D24, D28): the snapshot and the byte asked for;
bit i of FLAGS is F[i]; IN_BOUNDS is true; no state changes (the status output becomes OK: log 12, the model's own
reading). -/
def Obligations.InspectAndPeekReadOnly : Prop :=
  ∀ s : State,
    (∃ snap, hostOp .inspect s = (.snapshot snap, { s with status := .ok }) ∧
      snap.a = s.a ∧ snap.x = s.x ∧ snap.y = s.y ∧ snap.z = s.z ∧ snap.pc = s.pc ∧ snap.sp = s.sp ∧
      snap.inBounds = true ∧ ∀ f, snap.flags.getLsbD (flagNumber f) = s.flag f) ∧
    (∀ addr : Addr, hostOp (.peekMem addr) s = (.byte (s.mem.read addr.toNat), { s with status := .ok })) ∧
    (∀ i : Byte, hostOp (.peekStk i) s = (.byte (s.stk.read i.toNat), { s with status := .ok }))

/-- 60_exceptions.md, LOAD (decisions D24, D33): it writes one Memory byte and every other byte stays; where the byte is a
reserved opcode put at pc, the next CYCLE fetches and runs it. The model's own: STATUS = OK after LOAD (log 12) and the
canonical form of Memory that State.Inv includes (log 16). -/
def Obligations.LoadWritesOneByte : Prop :=
  ∀ (addr : Addr) (v : Byte) (s : State), s.Inv →
    ∃ t, hostOp (.load addr v) s = (.done, t) ∧ t.Inv ∧ t.mem.read addr.toNat = v ∧
      (∀ b, b ≠ addr.toNat → t.mem.read b = s.mem.read b) ∧ t = { s with mem := t.mem, status := .ok } ∧
      (s.pc = addr.toNat → Reserved v → step t = .next { t with pc := s.pc + 1 })

/-- 70_reset_and_hazards.md, RESET (decisions D21, D23): registers 0, flags false, pc 0, sp 0, STATUS = OK with FAULT_CODE
0; Memory and the stack buffer are kept. -/
def Obligations.ResetClearsAllButMemory : Prop :=
  ∀ s : State, ∃ t, hostOp .reset s = (.done, t) ∧ (∀ r, t.reg r = 0) ∧ (∀ f, t.flag f = false) ∧ t.pc = 0 ∧ t.sp = 0 ∧
    t.status = .ok ∧ t.status.faultCode = 0 ∧ t.mem = s.mem ∧ t.stk = s.stk

/-- 10_state.md, reset values; 70_reset_and_hazards.md, construction (decisions D21, D22): what holds before the first
operation, every Memory and stack byte 0x00. -/
def Obligations.ConstructionState : Prop :=
  (∀ r, State.reset.reg r = 0) ∧ (∀ f, State.reset.flag f = false) ∧ State.reset.pc = 0 ∧ State.reset.sp = 0 ∧
  State.reset.status = .ok ∧ (∀ addr, State.reset.mem.read addr = 0) ∧ (∀ i, State.reset.stk.read i = 0)

/-- 70_reset_and_hazards.md, boot (decisions D21, D33): after construction and the loads, Memory holds the image from
0x0000, zeros elsewhere, and the rest is as constructed. -/
def Obligations.BootLoadsImage : Prop :=
  ∀ image : List Byte, image.length ≤ 0x10000 →
    (∀ k, (boot image).mem.read k = image.getD k 0) ∧ boot image = { State.reset with mem := (boot image).mem }

/-- Every host operation keeps the invariant: pc at most 0x10000 (10_state.md R22), Memory and the stack buffer arrays of
their size (R28, R29) in canonical form, which is the model's: log 16. -/
def Obligations.HostOperationsKeepInvariant : Prop := ∀ (op : HostOp) (s : State), s.Inv → (hostOp op s).2.Inv

/-- 60_exceptions.md R146: an operation on one core leaves every other core as it was, and acts on that core as on a core
alone. -/
def Obligations.CoresShareNothing : Prop :=
  ∀ (k j : Nat) (op : HostOp) (sys : System),
    (j ≠ k → (systemOp k op sys)[j]? = sys[j]?) ∧
    (systemOp k op sys)[k]? = sys[k]?.map fun s => (hostOp op s).2

/-- 10_state.md, the unobservable stack bytes (derived in the spec): the bytes at and above sp do not affect a step, and
the steps leave two stack buffers that again agree below sp. -/
def Obligations.StackBytesFromSpOnUnobservable : Prop :=
  ∀ (s : State) (k : Memory), s.Inv → k.wf 256 = true → (∀ j < s.sp.toNat, k.read j = s.stk.read j) →
    match step s with
    | .next t => ∃ k' : Memory, step { s with stk := k } = .next { t with stk := k' } ∧
        ∀ j < t.sp.toNat, k'.read j = t.stk.read j
    | .fault f => step { s with stk := k } = .fault f
    | .refused r => step { s with stk := k } = .refused r

/-- 20_memory.md, fetch coherence; 70_reset_and_hazards.md, self-modifying code (derived in the spec): a byte STR stores at
the address of the next instruction is the opcode the next step executes (here a one-byte opcode). -/
def Obligations.StoredOpcodeRunsNext : Prop :=
  ∀ (r : Reg) (s : State), s.Inv → s.pc + 3 ≤ 0xFFFF → opLength (s.reg r) = 1 →
    (∀ k (h : k < 3), s.mem.read (s.pc + k) = (encode (.str r (BitVec.ofNat 16 (s.pc + 3))))[k]) →
    ∃ t, step s = .next t ∧ t.pc = s.pc + 3 ∧
      step t = mapNext (fun u => { u with status := .ok })
        (exec (decodeOpcode (s.reg r) 0 0) { t with pc := t.pc + 1 })
end

