-- ==== Sys2Proof/Laws/Memory.lean ====
section
/-! SUPPORT. The laws of a byte array: read after write, the canonical form, and equal contents are equal lists. -/

namespace Sys2Proof.Machine

@[simp] theorem Memory.read_nil (a : Nat) : Memory.read [] a = Memory.unlisted := rfl

@[simp] theorem Memory.read_cons (b : Nat) (w : Byte) (m : Memory) (a : Nat) :
    Memory.read ((b, w) :: m) a = if b = a then w else Memory.read m a := rfl

@[simp] theorem Memory.wfFrom_nil (size lo : Nat) : Memory.wfFrom size lo [] = true := by
  simp [Memory.wfFrom]

theorem Memory.wfFrom_cons {size lo b : Nat} {w : Byte} {m : Memory} :
    Memory.wfFrom size lo ((b, w) :: m) = true ↔
      lo ≤ b ∧ b < size ∧ w ≠ Memory.unlisted ∧ Memory.wfFrom size (b + 1) m = true := by
  simp [Memory.wfFrom, and_assoc]

/-- An array in canonical form from `lo` on is one from any lower bound on. -/
theorem Memory.wfFrom_mono {size lo lo' : Nat} {m : Memory} (h : lo' ≤ lo)
    (hm : Memory.wfFrom size lo m = true) : Memory.wfFrom size lo' m = true := by
  cases m with
  | nil => simp
  | cons c m =>
    obtain ⟨b, w⟩ := c
    rw [Memory.wfFrom_cons] at hm ⊢
    exact ⟨by omega, hm.2⟩

/-- Below its lower bound an array lists nothing. -/
theorem Memory.read_below {size lo : Nat} {m : Memory} {a : Nat} (hm : Memory.wfFrom size lo m = true)
    (h : a < lo) : m.read a = Memory.unlisted := by
  induction m generalizing lo with
  | nil => rfl
  | cons c m ih =>
    obtain ⟨b, w⟩ := c
    rw [Memory.wfFrom_cons] at hm
    rw [Memory.read_cons, if_neg (by omega)]
    exact ih hm.2.2.2 (by omega)

/-- At or above its size an array lists nothing. -/
theorem Memory.read_beyond {size lo : Nat} {m : Memory} {a : Nat} (hm : Memory.wfFrom size lo m = true)
    (h : size ≤ a) : m.read a = Memory.unlisted := by
  induction m generalizing lo with
  | nil => rfl
  | cons c m ih =>
    obtain ⟨b, w⟩ := c
    rw [Memory.wfFrom_cons] at hm
    rw [Memory.read_cons, if_neg (by omega)]
    exact ih hm.2.2.2

theorem Memory.read_put {size lo : Nat} {m : Memory} {a c : Nat} {v : Byte}
    (hm : Memory.wfFrom size lo m = true) (h : a < lo) :
    (Memory.put a v m).read c = if c = a then v else m.read c := by
  unfold Memory.put
  split
  · next hv =>
    split
    · next hc => rw [hc, hv, Memory.read_below hm h]
    · rfl
  · rw [Memory.read_cons]
    by_cases hc : c = a
    · rw [if_pos hc.symm, if_pos hc]
    · rw [if_neg (Ne.symm hc), if_neg hc]

theorem Memory.wfFrom_put {size lo : Nat} {m : Memory} {a : Nat} {v : Byte} (ha : lo ≤ a) (hs : a < size)
    (hm : Memory.wfFrom size (a + 1) m = true) : Memory.wfFrom size lo (Memory.put a v m) = true := by
  unfold Memory.put
  split
  · exact Memory.wfFrom_mono (by omega) hm
  · next hv => exact Memory.wfFrom_cons.mpr ⟨ha, hs, hv, hm⟩

theorem Memory.read_write_from {size lo : Nat} {m : Memory} (hm : Memory.wfFrom size lo m = true) (a c : Nat)
    (v : Byte) : (m.write a v).read c = if c = a then v else m.read c := by
  induction m generalizing lo with
  | nil =>
    exact Memory.read_put (lo := a + 1) (Memory.wfFrom_nil size (a + 1)) (by omega)
  | cons d m ih =>
    obtain ⟨b, w⟩ := d
    have hcons := Memory.wfFrom_cons.mp hm
    unfold Memory.write
    split
    · next hab =>
      exact Memory.read_put (lo := b) (Memory.wfFrom_cons.mpr ⟨le_refl b, hcons.2⟩) hab
    · split
      · next hab =>
        rw [Memory.read_put hcons.2.2.2 (by omega), Memory.read_cons]
        by_cases hc : c = a
        · rw [if_pos hc, if_pos hc]
        · rw [if_neg hc, if_neg hc, if_neg (by omega)]
      · next hlt hne =>
        rw [Memory.read_cons, Memory.read_cons, ih hcons.2.2.2]
        by_cases hc : b = c
        · rw [if_pos hc, if_pos hc, if_neg (by omega)]
        · rw [if_neg hc, if_neg hc]

theorem Memory.wfFrom_write {size lo : Nat} {m : Memory} (hm : Memory.wfFrom size lo m = true) {a : Nat} (v : Byte)
    (ha : lo ≤ a) (hs : a < size) : Memory.wfFrom size lo (m.write a v) = true := by
  induction m generalizing lo with
  | nil => exact Memory.wfFrom_put ha hs (by simp)
  | cons d m ih =>
    obtain ⟨b, w⟩ := d
    have hcons := Memory.wfFrom_cons.mp hm
    unfold Memory.write
    split
    · exact Memory.wfFrom_put ha hs (Memory.wfFrom_cons.mpr ⟨by omega, hcons.2⟩)
    · split
      · next hab => subst hab; exact Memory.wfFrom_put ha hs hcons.2.2.2
      · exact Memory.wfFrom_cons.mpr ⟨hcons.1, hcons.2.1, hcons.2.2.1, ih hcons.2.2.2 (by omega)⟩

/-- Read after write, in canonical form: the byte written at its address, every other byte as before (20_memory.md R42, R56). -/
theorem Memory.read_write {size : Nat} {m : Memory} (hm : m.wf size = true) (a c : Nat) (v : Byte) :
    (m.write a v).read c = if c = a then v else m.read c :=
  Memory.read_write_from hm a c v

theorem Memory.read_write_same {size : Nat} {m : Memory} (hm : m.wf size = true) (a : Nat) (v : Byte) :
    (m.write a v).read a = v := by rw [Memory.read_write hm, if_pos rfl]

theorem Memory.read_write_other {size : Nat} {m : Memory} (hm : m.wf size = true) {a c : Nat} (v : Byte) (h : c ≠ a) :
    (m.write a v).read c = m.read c := by rw [Memory.read_write hm, if_neg h]

/-- A write inside the array keeps the canonical form. -/
theorem Memory.write_wf {size : Nat} {m : Memory} (hm : m.wf size = true) {a : Nat} (v : Byte) (ha : a < size) :
    (m.write a v).wf size = true :=
  Memory.wfFrom_write hm v (Nat.zero_le a) ha

theorem Memory.nil_wf (size : Nat) : Memory.wf size [] = true := Memory.wfFrom_nil size 0

/-- Storing bytes that all lie inside the array keeps the canonical form. -/
theorem Memory.writeBytes_wf {size : Nat} {vs : List Byte} {m : Memory} {a : Nat} (hm : m.wf size = true)
    (ha : a + vs.length ≤ size) : (m.writeBytes a vs).wf size = true := by
  induction vs generalizing m a with
  | nil => exact hm
  | cons v vs ih =>
    simp only [List.length_cons] at ha
    exact ih (Memory.write_wf hm v (by omega)) (by omega)

theorem Memory.eq_of_read_from {size lo : Nat} {m n : Memory} (hm : Memory.wfFrom size lo m = true)
    (hn : Memory.wfFrom size lo n = true) (h : ∀ a, m.read a = n.read a) : m = n := by
  induction m generalizing lo n with
  | nil =>
    cases n with
    | nil => rfl
    | cons d n =>
      obtain ⟨b, w⟩ := d
      have hb := h b
      rw [Memory.read_cons, if_pos rfl] at hb
      exact absurd hb.symm (Memory.wfFrom_cons.mp hn).2.2.1
  | cons c m ih =>
    obtain ⟨b, w⟩ := c
    have hc := Memory.wfFrom_cons.mp hm
    cases n with
    | nil =>
      have hb := h b
      rw [Memory.read_cons, if_pos rfl] at hb
      exact absurd hb hc.2.2.1
    | cons d n =>
      obtain ⟨b', w'⟩ := d
      have hd := Memory.wfFrom_cons.mp hn
      have hb := h b
      have hb' := h b'
      simp only [Memory.read_cons, if_true] at hb hb'
      have hbb : b = b' := by
        rcases Nat.lt_trichotomy b b' with hlt | heq | hlt
        · rw [if_neg (by omega), Memory.read_below hd.2.2.2 (by omega)] at hb
          exact absurd hb hc.2.2.1
        · exact heq
        · rw [if_neg (by omega), Memory.read_below hc.2.2.2 (by omega)] at hb'
          exact absurd hb'.symm hd.2.2.1
      subst hbb
      rw [if_pos rfl] at hb
      subst hb
      have htail : m = n := ih hc.2.2.2 hd.2.2.2 fun a => by
        by_cases hab : a < b + 1
        · rw [Memory.read_below hc.2.2.2 hab, Memory.read_below hd.2.2.2 hab]
        · have := h a
          rwa [Memory.read_cons, Memory.read_cons, if_neg (by omega), if_neg (by omega)] at this
      rw [htail]

/-- Equal contents are equal lists. -/
theorem Memory.eq_of_read {size : Nat} {m n : Memory} (hm : m.wf size = true) (hn : n.wf size = true)
    (h : ∀ a, m.read a = n.read a) : m = n :=
  Memory.eq_of_read_from hm hn h

/-- A window that lies below the top of Memory is its bytes one by one. -/
theorem Memory.window_succ {m : Memory} {k a : Nat} (h : a < Config.memSize) :
    m.window (k + 1) a = m.read a :: m.window k (a + 1) := by
  rw [Memory.window, if_pos h]

theorem Memory.window_top {m : Memory} {k a : Nat} (h : Config.memSize ≤ a) : m.window k a = [] := by
  cases k with
  | zero => rfl
  | succ k => rw [Memory.window, if_neg (by omega)]

end Sys2Proof.Machine
end

