-- ==== Sys2Proof/Laws/State.lean ====
section
/-! SUPPORT. One lemma per field per update of State, so that no later proof unfolds a record update. -/

namespace Sys2Proof.Machine

/-! ### Registers and flags by name -/

@[simp] theorem reg_a (s : State) : s.reg .a = s.a := rfl
@[simp] theorem reg_x (s : State) : s.reg .x = s.x := rfl
@[simp] theorem reg_y (s : State) : s.reg .y = s.y := rfl
@[simp] theorem reg_z (s : State) : s.reg .z = s.z := rfl
@[simp] theorem flag_z (s : State) : s.flag .z = s.zf := rfl
@[simp] theorem flag_n (s : State) : s.flag .n = s.nf := rfl
@[simp] theorem flag_c (s : State) : s.flag .c = s.cf := rfl
@[simp] theorem flag_v (s : State) : s.flag .v = s.vf := rfl

/-! ### setReg -/

@[simp] theorem setReg_zf (s : State) (r : Reg) (v : Byte) : (s.setReg r v).zf = s.zf := by cases r <;> rfl
@[simp] theorem setReg_nf (s : State) (r : Reg) (v : Byte) : (s.setReg r v).nf = s.nf := by cases r <;> rfl
@[simp] theorem setReg_cf (s : State) (r : Reg) (v : Byte) : (s.setReg r v).cf = s.cf := by cases r <;> rfl
@[simp] theorem setReg_vf (s : State) (r : Reg) (v : Byte) : (s.setReg r v).vf = s.vf := by cases r <;> rfl
@[simp] theorem setReg_pc (s : State) (r : Reg) (v : Byte) : (s.setReg r v).pc = s.pc := by cases r <;> rfl
@[simp] theorem setReg_sp (s : State) (r : Reg) (v : Byte) : (s.setReg r v).sp = s.sp := by cases r <;> rfl
@[simp] theorem setReg_stk (s : State) (r : Reg) (v : Byte) : (s.setReg r v).stk = s.stk := by cases r <;> rfl
@[simp] theorem setReg_mem (s : State) (r : Reg) (v : Byte) : (s.setReg r v).mem = s.mem := by cases r <;> rfl
@[simp] theorem setReg_status (s : State) (r : Reg) (v : Byte) : (s.setReg r v).status = s.status := by cases r <;> rfl
@[simp] theorem setReg_reg_a (s : State) (v : Byte) : s.setReg .a v = { s with a := v } := rfl
@[simp] theorem setReg_reg_x (s : State) (v : Byte) : s.setReg .x v = { s with x := v } := rfl
@[simp] theorem setReg_reg_y (s : State) (v : Byte) : s.setReg .y v = { s with y := v } := rfl
@[simp] theorem setReg_reg_z (s : State) (v : Byte) : s.setReg .z v = { s with z := v } := rfl
@[simp] theorem flag_setReg (s : State) (r : Reg) (v : Byte) (f : CondFlag) : (s.setReg r v).flag f = s.flag f := by cases r <;> rfl
@[simp] theorem reg_setReg_same (s : State) (r : Reg) (v : Byte) : (s.setReg r v).reg r = v := by cases r <;> rfl
theorem reg_setReg_other (s : State) {r q : Reg} (v : Byte) (h : q ≠ r) : (s.setReg r v).reg q = s.reg q := by
  cases r <;> cases q <;> first | rfl | exact absurd rfl h

/-! ### setFlag -/

@[simp] theorem setFlag_a (s : State) (f : CondFlag) (b : Bool) : (s.setFlag f b).a = s.a := by cases f <;> rfl
@[simp] theorem setFlag_x (s : State) (f : CondFlag) (b : Bool) : (s.setFlag f b).x = s.x := by cases f <;> rfl
@[simp] theorem setFlag_y (s : State) (f : CondFlag) (b : Bool) : (s.setFlag f b).y = s.y := by cases f <;> rfl
@[simp] theorem setFlag_z (s : State) (f : CondFlag) (b : Bool) : (s.setFlag f b).z = s.z := by cases f <;> rfl
@[simp] theorem setFlag_pc (s : State) (f : CondFlag) (b : Bool) : (s.setFlag f b).pc = s.pc := by cases f <;> rfl
@[simp] theorem setFlag_sp (s : State) (f : CondFlag) (b : Bool) : (s.setFlag f b).sp = s.sp := by cases f <;> rfl
@[simp] theorem setFlag_stk (s : State) (f : CondFlag) (b : Bool) : (s.setFlag f b).stk = s.stk := by cases f <;> rfl
@[simp] theorem setFlag_mem (s : State) (f : CondFlag) (b : Bool) : (s.setFlag f b).mem = s.mem := by cases f <;> rfl
@[simp] theorem setFlag_status (s : State) (f : CondFlag) (b : Bool) : (s.setFlag f b).status = s.status := by cases f <;> rfl
@[simp] theorem setFlag_flag_z (s : State) (b : Bool) : s.setFlag .z b = { s with zf := b } := rfl
@[simp] theorem setFlag_flag_n (s : State) (b : Bool) : s.setFlag .n b = { s with nf := b } := rfl
@[simp] theorem setFlag_flag_c (s : State) (b : Bool) : s.setFlag .c b = { s with cf := b } := rfl
@[simp] theorem setFlag_flag_v (s : State) (b : Bool) : s.setFlag .v b = { s with vf := b } := rfl
@[simp] theorem reg_setFlag (s : State) (f : CondFlag) (b : Bool) (r : Reg) : (s.setFlag f b).reg r = s.reg r := by cases f <;> rfl
@[simp] theorem flag_setFlag_same (s : State) (f : CondFlag) (b : Bool) : (s.setFlag f b).flag f = b := by cases f <;> rfl
theorem flag_setFlag_other (s : State) {f g : CondFlag} (b : Bool) (h : g ≠ f) : (s.setFlag f b).flag g = s.flag g := by
  cases f <;> cases g <;> first | rfl | exact absurd rfl h

/-! ### setZN and setAluFlags -/

@[simp] theorem setZN_a (v : Byte) (s : State) : (setZN v s).a = s.a := rfl
@[simp] theorem setZN_x (v : Byte) (s : State) : (setZN v s).x = s.x := rfl
@[simp] theorem setZN_y (v : Byte) (s : State) : (setZN v s).y = s.y := rfl
@[simp] theorem setZN_z (v : Byte) (s : State) : (setZN v s).z = s.z := rfl
@[simp] theorem setZN_cf (v : Byte) (s : State) : (setZN v s).cf = s.cf := rfl
@[simp] theorem setZN_vf (v : Byte) (s : State) : (setZN v s).vf = s.vf := rfl
@[simp] theorem setZN_pc (v : Byte) (s : State) : (setZN v s).pc = s.pc := rfl
@[simp] theorem setZN_sp (v : Byte) (s : State) : (setZN v s).sp = s.sp := rfl
@[simp] theorem setZN_stk (v : Byte) (s : State) : (setZN v s).stk = s.stk := rfl
@[simp] theorem setZN_mem (v : Byte) (s : State) : (setZN v s).mem = s.mem := rfl
@[simp] theorem setZN_status (v : Byte) (s : State) : (setZN v s).status = s.status := rfl
@[simp] theorem setZN_zf (v : Byte) (s : State) : (setZN v s).zf = (v == 0) := rfl
@[simp] theorem setZN_nf (v : Byte) (s : State) : (setZN v s).nf = v.getLsbD 7 := rfl
@[simp] theorem reg_setZN (v : Byte) (s : State) (r : Reg) : (setZN v s).reg r = s.reg r := by cases r <;> rfl
@[simp] theorem setFlagOpt_a (s : State) (f : CondFlag) (o : Option Bool) : (s.setFlag? f o).a = s.a := by cases o <;> cases f <;> rfl
@[simp] theorem setFlagOpt_x (s : State) (f : CondFlag) (o : Option Bool) : (s.setFlag? f o).x = s.x := by cases o <;> cases f <;> rfl
@[simp] theorem setFlagOpt_y (s : State) (f : CondFlag) (o : Option Bool) : (s.setFlag? f o).y = s.y := by cases o <;> cases f <;> rfl
@[simp] theorem setFlagOpt_z (s : State) (f : CondFlag) (o : Option Bool) : (s.setFlag? f o).z = s.z := by cases o <;> cases f <;> rfl
@[simp] theorem setFlagOpt_pc (s : State) (f : CondFlag) (o : Option Bool) : (s.setFlag? f o).pc = s.pc := by cases o <;> cases f <;> rfl
@[simp] theorem setFlagOpt_sp (s : State) (f : CondFlag) (o : Option Bool) : (s.setFlag? f o).sp = s.sp := by cases o <;> cases f <;> rfl
@[simp] theorem setFlagOpt_stk (s : State) (f : CondFlag) (o : Option Bool) : (s.setFlag? f o).stk = s.stk := by cases o <;> cases f <;> rfl
@[simp] theorem setFlagOpt_mem (s : State) (f : CondFlag) (o : Option Bool) : (s.setFlag? f o).mem = s.mem := by cases o <;> cases f <;> rfl
@[simp] theorem setFlagOpt_status (s : State) (f : CondFlag) (o : Option Bool) : (s.setFlag? f o).status = s.status := by cases o <;> cases f <;> rfl
@[simp] theorem setAluFlags_a (r : AluResult) (s : State) : (setAluFlags r s).a = s.a := by simp [setAluFlags]
@[simp] theorem setAluFlags_x (r : AluResult) (s : State) : (setAluFlags r s).x = s.x := by simp [setAluFlags]
@[simp] theorem setAluFlags_y (r : AluResult) (s : State) : (setAluFlags r s).y = s.y := by simp [setAluFlags]
@[simp] theorem setAluFlags_z (r : AluResult) (s : State) : (setAluFlags r s).z = s.z := by simp [setAluFlags]
@[simp] theorem setAluFlags_pc (r : AluResult) (s : State) : (setAluFlags r s).pc = s.pc := by simp [setAluFlags]
@[simp] theorem setAluFlags_sp (r : AluResult) (s : State) : (setAluFlags r s).sp = s.sp := by simp [setAluFlags]
@[simp] theorem setAluFlags_stk (r : AluResult) (s : State) : (setAluFlags r s).stk = s.stk := by simp [setAluFlags]
@[simp] theorem setAluFlags_mem (r : AluResult) (s : State) : (setAluFlags r s).mem = s.mem := by simp [setAluFlags]
@[simp] theorem setAluFlags_status (r : AluResult) (s : State) : (setAluFlags r s).status = s.status := by simp [setAluFlags]
@[simp] theorem setAluFlags_zf (r : AluResult) (s : State) : (setAluFlags r s).zf = (r.value == 0) := by
  rcases r with ⟨v, _ | _, _ | _⟩ <;> rfl
@[simp] theorem setAluFlags_nf (r : AluResult) (s : State) : (setAluFlags r s).nf = r.value.getLsbD 7 := by
  rcases r with ⟨v, _ | _, _ | _⟩ <;> rfl
@[simp] theorem setAluFlags_cf (r : AluResult) (s : State) : (setAluFlags r s).cf = r.carry.getD s.cf := by
  rcases r with ⟨v, _ | _, _ | _⟩ <;> rfl
@[simp] theorem setAluFlags_vf (r : AluResult) (s : State) : (setAluFlags r s).vf = r.overflow.getD s.vf := by
  rcases r with ⟨v, _ | _, _ | _⟩ <;> rfl
@[simp] theorem reg_setAluFlags (r : AluResult) (s : State) (q : Reg) : (setAluFlags r s).reg q = s.reg q := by cases q <;> simp [setAluFlags]

/-! ### pc, stack buffer, status -/

@[simp] theorem jump_a (a : Addr) (s : State) : (jump a s).a = s.a := rfl
@[simp] theorem jump_x (a : Addr) (s : State) : (jump a s).x = s.x := rfl
@[simp] theorem jump_y (a : Addr) (s : State) : (jump a s).y = s.y := rfl
@[simp] theorem jump_z (a : Addr) (s : State) : (jump a s).z = s.z := rfl
@[simp] theorem jump_zf (a : Addr) (s : State) : (jump a s).zf = s.zf := rfl
@[simp] theorem jump_nf (a : Addr) (s : State) : (jump a s).nf = s.nf := rfl
@[simp] theorem jump_cf (a : Addr) (s : State) : (jump a s).cf = s.cf := rfl
@[simp] theorem jump_vf (a : Addr) (s : State) : (jump a s).vf = s.vf := rfl
@[simp] theorem jump_sp (a : Addr) (s : State) : (jump a s).sp = s.sp := rfl
@[simp] theorem jump_stk (a : Addr) (s : State) : (jump a s).stk = s.stk := rfl
@[simp] theorem jump_mem (a : Addr) (s : State) : (jump a s).mem = s.mem := rfl
@[simp] theorem jump_status (a : Addr) (s : State) : (jump a s).status = s.status := rfl
@[simp] theorem jump_pc (a : Addr) (s : State) : (jump a s).pc = a.toNat := rfl
@[simp] theorem stkWrite_a (i : Nat) (v : Byte) (s : State) : (stkWrite i v s).a = s.a := rfl
@[simp] theorem stkWrite_x (i : Nat) (v : Byte) (s : State) : (stkWrite i v s).x = s.x := rfl
@[simp] theorem stkWrite_y (i : Nat) (v : Byte) (s : State) : (stkWrite i v s).y = s.y := rfl
@[simp] theorem stkWrite_z (i : Nat) (v : Byte) (s : State) : (stkWrite i v s).z = s.z := rfl
@[simp] theorem stkWrite_zf (i : Nat) (v : Byte) (s : State) : (stkWrite i v s).zf = s.zf := rfl
@[simp] theorem stkWrite_nf (i : Nat) (v : Byte) (s : State) : (stkWrite i v s).nf = s.nf := rfl
@[simp] theorem stkWrite_cf (i : Nat) (v : Byte) (s : State) : (stkWrite i v s).cf = s.cf := rfl
@[simp] theorem stkWrite_vf (i : Nat) (v : Byte) (s : State) : (stkWrite i v s).vf = s.vf := rfl
@[simp] theorem stkWrite_pc (i : Nat) (v : Byte) (s : State) : (stkWrite i v s).pc = s.pc := rfl
@[simp] theorem stkWrite_sp (i : Nat) (v : Byte) (s : State) : (stkWrite i v s).sp = s.sp := rfl
@[simp] theorem stkWrite_mem (i : Nat) (v : Byte) (s : State) : (stkWrite i v s).mem = s.mem := rfl
@[simp] theorem stkWrite_status (i : Nat) (v : Byte) (s : State) : (stkWrite i v s).status = s.status := rfl
@[simp] theorem stkWrite_stk (i : Nat) (v : Byte) (s : State) : (stkWrite i v s).stk = s.stk.write i v := rfl
@[simp] theorem reportOk_a (s : State) : s.reportOk.a = s.a := rfl
@[simp] theorem reportOk_x (s : State) : s.reportOk.x = s.x := rfl
@[simp] theorem reportOk_y (s : State) : s.reportOk.y = s.y := rfl
@[simp] theorem reportOk_z (s : State) : s.reportOk.z = s.z := rfl
@[simp] theorem reportOk_zf (s : State) : s.reportOk.zf = s.zf := rfl
@[simp] theorem reportOk_nf (s : State) : s.reportOk.nf = s.nf := rfl
@[simp] theorem reportOk_cf (s : State) : s.reportOk.cf = s.cf := rfl
@[simp] theorem reportOk_vf (s : State) : s.reportOk.vf = s.vf := rfl
@[simp] theorem reportOk_pc (s : State) : s.reportOk.pc = s.pc := rfl
@[simp] theorem reportOk_sp (s : State) : s.reportOk.sp = s.sp := rfl
@[simp] theorem reportOk_stk (s : State) : s.reportOk.stk = s.stk := rfl
@[simp] theorem reportOk_mem (s : State) : s.reportOk.mem = s.mem := rfl
@[simp] theorem reportOk_status (s : State) : s.reportOk.status = .ok := rfl
@[simp] theorem reportFault_a (f : Fault) (s : State) : (s.reportFault f).a = s.a := rfl
@[simp] theorem reportFault_x (f : Fault) (s : State) : (s.reportFault f).x = s.x := rfl
@[simp] theorem reportFault_y (f : Fault) (s : State) : (s.reportFault f).y = s.y := rfl
@[simp] theorem reportFault_z (f : Fault) (s : State) : (s.reportFault f).z = s.z := rfl
@[simp] theorem reportFault_zf (f : Fault) (s : State) : (s.reportFault f).zf = s.zf := rfl
@[simp] theorem reportFault_nf (f : Fault) (s : State) : (s.reportFault f).nf = s.nf := rfl
@[simp] theorem reportFault_cf (f : Fault) (s : State) : (s.reportFault f).cf = s.cf := rfl
@[simp] theorem reportFault_vf (f : Fault) (s : State) : (s.reportFault f).vf = s.vf := rfl
@[simp] theorem reportFault_pc (f : Fault) (s : State) : (s.reportFault f).pc = s.pc := rfl
@[simp] theorem reportFault_sp (f : Fault) (s : State) : (s.reportFault f).sp = s.sp := rfl
@[simp] theorem reportFault_stk (f : Fault) (s : State) : (s.reportFault f).stk = s.stk := rfl
@[simp] theorem reportFault_mem (f : Fault) (s : State) : (s.reportFault f).mem = s.mem := rfl
@[simp] theorem reportFault_status (f : Fault) (s : State) : (s.reportFault f).status = .fault f s.pc := rfl

/-! ### Register, flag and index reads through record updates -/

@[simp] theorem reg_with_pc (s : State) (v : Nat) (r : Reg) : State.reg { s with pc := v } r = s.reg r := by cases r <;> rfl
@[simp] theorem flag_with_pc (s : State) (v : Nat) (f : CondFlag) : State.flag { s with pc := v } f = s.flag f := by cases f <;> rfl
@[simp] theorem indexValue_with_pc (s : State) (v : Nat) (i : Index) : State.indexValue { s with pc := v } i = s.indexValue i := by cases i <;> rfl
@[simp] theorem effAddr_with_pc (a : Addr) (i : Index) (s : State) (v : Nat) : effAddr a i { s with pc := v } = effAddr a i s := by cases i <;> rfl
@[simp] theorem reg_with_sp (s : State) (v : Byte) (r : Reg) : State.reg { s with sp := v } r = s.reg r := by cases r <;> rfl
@[simp] theorem flag_with_sp (s : State) (v : Byte) (f : CondFlag) : State.flag { s with sp := v } f = s.flag f := by cases f <;> rfl
@[simp] theorem indexValue_with_sp (s : State) (v : Byte) (i : Index) : State.indexValue { s with sp := v } i = s.indexValue i := by cases i <;> rfl
@[simp] theorem effAddr_with_sp (a : Addr) (i : Index) (s : State) (v : Byte) : effAddr a i { s with sp := v } = effAddr a i s := by cases i <;> rfl
@[simp] theorem reg_with_stk (s : State) (v : Memory) (r : Reg) : State.reg { s with stk := v } r = s.reg r := by cases r <;> rfl
@[simp] theorem flag_with_stk (s : State) (v : Memory) (f : CondFlag) : State.flag { s with stk := v } f = s.flag f := by cases f <;> rfl
@[simp] theorem indexValue_with_stk (s : State) (v : Memory) (i : Index) : State.indexValue { s with stk := v } i = s.indexValue i := by cases i <;> rfl
@[simp] theorem effAddr_with_stk (a : Addr) (i : Index) (s : State) (v : Memory) : effAddr a i { s with stk := v } = effAddr a i s := by cases i <;> rfl
@[simp] theorem reg_with_mem (s : State) (v : Memory) (r : Reg) : State.reg { s with mem := v } r = s.reg r := by cases r <;> rfl
@[simp] theorem flag_with_mem (s : State) (v : Memory) (f : CondFlag) : State.flag { s with mem := v } f = s.flag f := by cases f <;> rfl
@[simp] theorem indexValue_with_mem (s : State) (v : Memory) (i : Index) : State.indexValue { s with mem := v } i = s.indexValue i := by cases i <;> rfl
@[simp] theorem effAddr_with_mem (a : Addr) (i : Index) (s : State) (v : Memory) : effAddr a i { s with mem := v } = effAddr a i s := by cases i <;> rfl
@[simp] theorem reg_with_status (s : State) (v : Status) (r : Reg) : State.reg { s with status := v } r = s.reg r := by cases r <;> rfl
@[simp] theorem flag_with_status (s : State) (v : Status) (f : CondFlag) : State.flag { s with status := v } f = s.flag f := by cases f <;> rfl
@[simp] theorem indexValue_with_status (s : State) (v : Status) (i : Index) : State.indexValue { s with status := v } i = s.indexValue i := by cases i <;> rfl
@[simp] theorem effAddr_with_status (a : Addr) (i : Index) (s : State) (v : Status) : effAddr a i { s with status := v } = effAddr a i s := by cases i <;> rfl

/-- Two states with the same fields are the same state. -/
theorem State.eq_of_fields {s t : State} (hr : ∀ r, s.reg r = t.reg r) (hf : ∀ f, s.flag f = t.flag f)
    (hpc : s.pc = t.pc) (hsp : s.sp = t.sp) (hstk : s.stk = t.stk) (hmem : s.mem = t.mem)
    (hst : s.status = t.status) : s = t := by
  have ha := hr .a; have hx := hr .x; have hy := hr .y; have hz := hr .z
  have h0 := hf .z; have h1 := hf .n; have h2 := hf .c; have h3 := hf .v
  cases s; cases t; simp_all

end Sys2Proof.Machine
end

