-- ==== Sys2Proof/Laws/Ops.lean ====
section
/-! SUPPORT. For each shared operation, what it answers and when: cited instead of unfolding it. -/

namespace Sys2Proof.Machine

/-! ### Sequencing -/

@[simp] theorem bind_ok {α β : Type} (v : α) (k : α → Except Fault β) : (Except.ok v >>= k) = k v := rfl

@[simp] theorem bind_error {α β : Type} (f : Fault) (k : α → Except Fault β) :
    (Except.error f >>= k) = Except.error f := rfl

/-- A sequence answers a value exactly when both of its parts do. -/
theorem bind_eq_ok {α β : Type} {e : Except Fault α} {k : α → Except Fault β} {v : β} :
    (e >>= k) = .ok v ↔ ∃ u, e = .ok u ∧ k u = .ok v := by
  cases e <;> simp

@[simp] theorem raise_eq {α : Type} (f : Fault) : (raise f : Except Fault α) = .error f := rfl

@[simp] theorem finish_ok (s : State) : finish (.ok s) = .next s := rfl

@[simp] theorem finish_error (f : Fault) : finish (.error f) = .fault f := rfl

theorem finish_eq_next {e : Except Fault State} {t : State} : finish e = .next t ↔ e = .ok t := by
  cases e <;> simp [finish]

theorem finish_eq_fault {e : Except Fault State} {f : Fault} : finish e = .fault f ↔ e = .error f := by
  cases e <;> simp [finish]

theorem finish_ne_refused (e : Except Fault State) (r : Refusal) : finish e ≠ .refused r := by
  cases e <;> simp [finish]

/-! ### Memory -/

theorem boundsCheck_inside {addr n : Nat} (h : addr + n ≤ Config.memSize) : boundsCheck addr n = .ok () := by
  rw [boundsCheck, if_pos h]

theorem boundsCheck_outside {addr n : Nat} (h : ¬ addr + n ≤ Config.memSize) :
    boundsCheck addr n = .error (.outOfBounds (max addr Config.memSize)) := by
  rw [boundsCheck, if_neg h]; rfl

theorem memRead_inside {addr : Nat} (h : addr + 1 ≤ Config.memSize) (s : State) :
    memRead addr s = .ok (s.mem.read addr) := by
  rw [memRead, boundsCheck_inside h]; rfl

theorem memRead_outside {addr : Nat} (h : ¬ addr + 1 ≤ Config.memSize) (s : State) :
    memRead addr s = .error (.outOfBounds (max addr Config.memSize)) := by
  rw [memRead, boundsCheck_outside h]; rfl

theorem memRead2_inside {addr : Nat} (h : addr + 2 ≤ Config.memSize) (s : State) :
    memRead2 addr s = .ok (joinBytes (s.mem.read addr) (s.mem.read (addr + 1))) := by
  rw [memRead2, boundsCheck_inside h]; rfl

theorem memWrite_inside {addr : Nat} (h : addr + 1 ≤ Config.memSize) (v : Byte) (s : State) :
    memWrite addr v s = .ok { s with mem := s.mem.write addr v } := by
  rw [memWrite, boundsCheck_inside h]; rfl

theorem memWrite_outside {addr : Nat} (h : ¬ addr + 1 ≤ Config.memSize) (v : Byte) (s : State) :
    memWrite addr v s = .error (.outOfBounds (max addr Config.memSize)) := by
  rw [memWrite, boundsCheck_outside h]; rfl

/-- An address operand names a byte of Memory. -/
theorem addr_inside (a : Addr) : a.toNat + 1 ≤ Config.memSize := a.isLt

/-! ### Operand fetch -/

theorem passOperand_inside {n : Nat} {s : State} (h : s.pc + n ≤ Config.memSize) :
    passOperand n s = .ok { s with pc := s.pc + n } := by
  rw [passOperand, boundsCheck_inside h]; rfl

theorem passOperand_outside {n : Nat} {s : State} (h : ¬ s.pc + n ≤ Config.memSize) :
    passOperand n s = .error (.outOfBounds (max s.pc Config.memSize)) := by
  rw [passOperand, boundsCheck_outside h]; rfl

/-- All an operand fetch can do: move pc past the operand, inside Memory. -/
theorem passOperand_eq_ok {n : Nat} {s t : State} :
    passOperand n s = .ok t ↔ s.pc + n ≤ Config.memSize ∧ t = { s with pc := s.pc + n } := by
  by_cases h : s.pc + n ≤ Config.memSize
  · rw [passOperand_inside h]; simp [h, eq_comm]
  · rw [passOperand_outside h]; simp [h]

theorem fetchAddr_inside {s : State} (h : s.pc + 2 ≤ Config.memSize) : fetchAddr s = .ok { s with pc := s.pc + 2 } :=
  passOperand_inside h

theorem fetchAddr_outside {s : State} (h : ¬ s.pc + 2 ≤ Config.memSize) :
    fetchAddr s = .error (.outOfBounds (max s.pc Config.memSize)) :=
  passOperand_outside h

theorem fetchImm8_inside {s : State} (h : s.pc + 1 ≤ Config.memSize) : fetchImm8 s = .ok { s with pc := s.pc + 1 } :=
  passOperand_inside h

theorem fetchImm8_outside {s : State} (h : ¬ s.pc + 1 ≤ Config.memSize) :
    fetchImm8 s = .error (.outOfBounds (max s.pc Config.memSize)) :=
  passOperand_outside h

/-! ### Stack controller -/

theorem push8_inside {v : Byte} {s : State} (h : s.sp.toNat + 1 ≤ Config.spMax) :
    push8 v s = .ok { s with stk := s.stk.write s.sp.toNat v, sp := s.sp + 1 } := by
  rw [push8, if_pos h]; rfl

theorem push8_full {v : Byte} {s : State} (h : ¬ s.sp.toNat + 1 ≤ Config.spMax) :
    push8 v s = .error (.stackOverflow s.sp) := by
  rw [push8, if_neg h]; rfl

theorem push16_inside {v : Addr} {s : State} (h : s.sp.toNat + 2 ≤ Config.spMax) :
    push16 v s = .ok { s with
      stk := (s.stk.write s.sp.toNat (highByte v)).write (s.sp.toNat + 1) (lowByte v), sp := s.sp + 2 } := by
  rw [push16, if_pos h]; rfl

theorem push16_full {v : Addr} {s : State} (h : ¬ s.sp.toNat + 2 ≤ Config.spMax) :
    push16 v s = .error (.stackOverflow s.sp) := by
  rw [push16, if_neg h]; rfl

theorem pull8_inside {s : State} (h : 1 ≤ s.sp.toNat) :
    pull8 s = .ok (s.stk.read (s.sp.toNat - 1), { s with sp := s.sp - 1 }) := by
  rw [pull8, if_pos h]; rfl

theorem pull8_empty {s : State} (h : ¬ 1 ≤ s.sp.toNat) : pull8 s = .error (.stackUnderflow s.sp) := by
  rw [pull8, if_neg h]; rfl

theorem pull16_inside {s : State} (h : 2 ≤ s.sp.toNat) :
    pull16 s = .ok (joinBytes (s.stk.read (s.sp.toNat - 2)) (s.stk.read (s.sp.toNat - 1)), { s with sp := s.sp - 2 }) := by
  rw [pull16, if_pos h]; rfl

theorem pull16_empty {s : State} (h : ¬ 2 ≤ s.sp.toNat) : pull16 s = .error (.stackUnderflow s.sp) := by
  rw [pull16, if_neg h]; rfl

/-- All a byte push can do: store at sp and raise it, never past 255. -/
theorem push8_eq_ok {v : Byte} {s t : State} :
    push8 v s = .ok t ↔ s.sp.toNat + 1 ≤ Config.spMax ∧ t = { s with stk := s.stk.write s.sp.toNat v, sp := s.sp + 1 } := by
  by_cases h : s.sp.toNat + 1 ≤ Config.spMax
  · rw [push8_inside h]; simp [h, eq_comm]
  · rw [push8_full h]; simp [h]

/-- All a 16-bit push can do. -/
theorem push16_eq_ok {v : Addr} {s t : State} :
    push16 v s = .ok t ↔ s.sp.toNat + 2 ≤ Config.spMax ∧ t = { s with
      stk := (s.stk.write s.sp.toNat (highByte v)).write (s.sp.toNat + 1) (lowByte v), sp := s.sp + 2 } := by
  by_cases h : s.sp.toNat + 2 ≤ Config.spMax
  · rw [push16_inside h]; simp [h, eq_comm]
  · rw [push16_full h]; simp [h]

/-- All a byte pull can do. -/
theorem pull8_eq_ok {s : State} {p : Byte × State} :
    pull8 s = .ok p ↔ 1 ≤ s.sp.toNat ∧ p = (s.stk.read (s.sp.toNat - 1), { s with sp := s.sp - 1 }) := by
  by_cases h : 1 ≤ s.sp.toNat
  · rw [pull8_inside h]; simp [h, eq_comm]
  · rw [pull8_empty h]; simp [h]

/-- All a 16-bit pull can do. -/
theorem pull16_eq_ok {s : State} {p : Addr × State} :
    pull16 s = .ok p ↔ 2 ≤ s.sp.toNat ∧
      p = (joinBytes (s.stk.read (s.sp.toNat - 2)) (s.stk.read (s.sp.toNat - 1)), { s with sp := s.sp - 2 }) := by
  by_cases h : 2 ≤ s.sp.toNat
  · rw [pull16_inside h]; simp [h, eq_comm]
  · rw [pull16_empty h]; simp [h]

/-! ### Address decoder and operand multiplexer -/

theorem resolveMem_inside {a : Addr} {i : Index} {s : State} (h : s.pc + 2 ≤ Config.memSize)
    (he : effAddr a i s + 1 ≤ Config.memSize) :
    resolveMem a i s = .ok (effAddr a i s, { s with pc := s.pc + 2 }) := by
  rw [resolveMem, fetchAddr_inside h]
  simp [boundsCheck_inside he]

theorem resolveMem_operand_outside {a : Addr} {i : Index} {s : State} (h : ¬ s.pc + 2 ≤ Config.memSize) :
    resolveMem a i s = .error (.outOfBounds (max s.pc Config.memSize)) := by
  rw [resolveMem, fetchAddr_outside h]; rfl

theorem resolveMem_index_outside {a : Addr} {i : Index} {s : State} (h : s.pc + 2 ≤ Config.memSize)
    (he : ¬ effAddr a i s + 1 ≤ Config.memSize) :
    resolveMem a i s = .error (.outOfBounds (effAddr a i s)) := by
  rw [resolveMem, fetchAddr_inside h]
  simp only [bind_ok, effAddr_with_pc, boundsCheck_outside he, bind_error]
  congr 2
  omega

/-- All the memory half of the address decoder can do. -/
theorem resolveMem_eq_ok {a : Addr} {i : Index} {s t : State} {ea : Nat} :
    resolveMem a i s = .ok (ea, t) ↔
      s.pc + 2 ≤ Config.memSize ∧ effAddr a i s + 1 ≤ Config.memSize ∧ ea = effAddr a i s ∧
        t = { s with pc := s.pc + 2 } := by
  by_cases h : s.pc + 2 ≤ Config.memSize
  · by_cases he : effAddr a i s + 1 ≤ Config.memSize
    · rw [resolveMem_inside h he]; simp [h, he, eq_comm]
    · rw [resolveMem_index_outside h he]; simp [he]
  · rw [resolveMem_operand_outside h]; simp [h]

@[simp] theorem resolve_reg (r : Reg) (s : State) : resolve (.reg r) s = .ok (.reg r, s) := rfl

theorem resolve_mem (a : Addr) (i : Index) (s : State) :
    resolve (.mem a i) s = (resolveMem a i s >>= fun p => .ok (.mem p.1, p.2)) := rfl

@[simp] theorem readMR_reg (r : Reg) (s : State) : readMR (.reg r) s = .ok (s.reg r) := rfl

@[simp] theorem readMR_mem (ea : Nat) (s : State) : readMR (.mem ea) s = memRead ea s := rfl

@[simp] theorem writeMR_reg (r : Reg) (v : Byte) (s : State) : writeMR (.reg r) v s = .ok (s.setReg r v) := rfl

@[simp] theorem writeMR_mem (ea : Nat) (v : Byte) (s : State) : writeMR (.mem ea) v s = memWrite ea v s := rfl

/-! ### ALU templates, by operand form -/

theorem unary_reg (f : Byte → AluResult) (r : Reg) (s : State) :
    unary f (.reg r) s = .next (setAluFlags (f (s.reg r)) (s.setReg r (f (s.reg r)).value)) := rfl

theorem unary_mem_inside (f : Byte → AluResult) {a : Addr} {i : Index} {s : State} (h : s.pc + 2 ≤ Config.memSize)
    (he : effAddr a i s + 1 ≤ Config.memSize) :
    unary f (.mem a i) s = .next (setAluFlags (f (s.mem.read (effAddr a i s)))
      { s with pc := s.pc + 2, mem := s.mem.write (effAddr a i s) (f (s.mem.read (effAddr a i s))).value }) := by
  simp only [unary, resolve_mem, resolveMem_inside h he, bind_ok, readMR_mem, memRead_inside he, writeMR_mem,
    memWrite_inside he, finish_ok]

theorem unary_mem_operand_outside (f : Byte → AluResult) {a : Addr} {i : Index} {s : State}
    (h : ¬ s.pc + 2 ≤ Config.memSize) : unary f (.mem a i) s = .fault (.outOfBounds (max s.pc Config.memSize)) := by
  simp only [unary, resolve_mem, resolveMem_operand_outside h, bind_error, finish_error]

theorem unary_mem_index_outside (f : Byte → AluResult) {a : Addr} {i : Index} {s : State}
    (h : s.pc + 2 ≤ Config.memSize) (he : ¬ effAddr a i s + 1 ≤ Config.memSize) :
    unary f (.mem a i) s = .fault (.outOfBounds (effAddr a i s)) := by
  simp only [unary, resolve_mem, resolveMem_index_outside h he, bind_error, finish_error]

theorem binaryResult_reg (g : Byte → Byte → AluResult) (r : Reg) (s : State) :
    binaryResult g (.reg r) s = .ok (g s.a (s.reg r), s) := rfl

theorem binaryResult_mem_inside (g : Byte → Byte → AluResult) {a : Addr} {i : Index} {s : State}
    (h : s.pc + 2 ≤ Config.memSize) (he : effAddr a i s + 1 ≤ Config.memSize) :
    binaryResult g (.mem a i) s = .ok (g s.a (s.mem.read (effAddr a i s)), { s with pc := s.pc + 2 }) := by
  simp only [binaryResult, resolve_mem, resolveMem_inside h he, bind_ok, readMR_mem, memRead_inside he, reg_a]

theorem binaryResult_mem_operand_outside (g : Byte → Byte → AluResult) {a : Addr} {i : Index} {s : State}
    (h : ¬ s.pc + 2 ≤ Config.memSize) :
    binaryResult g (.mem a i) s = .error (.outOfBounds (max s.pc Config.memSize)) := by
  simp only [binaryResult, resolve_mem, resolveMem_operand_outside h, bind_error]

theorem binaryResult_mem_index_outside (g : Byte → Byte → AluResult) {a : Addr} {i : Index} {s : State}
    (h : s.pc + 2 ≤ Config.memSize) (he : ¬ effAddr a i s + 1 ≤ Config.memSize) :
    binaryResult g (.mem a i) s = .error (.outOfBounds (effAddr a i s)) := by
  simp only [binaryResult, resolve_mem, resolveMem_index_outside h he, bind_error]

/-- All the unary template can do in a memory form. -/
theorem unary_mem_eq_next {f : Byte → AluResult} {a : Addr} {i : Index} {s t : State} :
    unary f (.mem a i) s = .next t ↔
      s.pc + 2 ≤ Config.memSize ∧ effAddr a i s + 1 ≤ Config.memSize ∧
        t = setAluFlags (f (s.mem.read (effAddr a i s)))
          { s with pc := s.pc + 2, mem := s.mem.write (effAddr a i s) (f (s.mem.read (effAddr a i s))).value } := by
  by_cases h : s.pc + 2 ≤ Config.memSize
  · by_cases he : effAddr a i s + 1 ≤ Config.memSize
    · rw [unary_mem_inside f h he]; simp [h, he, eq_comm]
    · rw [unary_mem_index_outside f h he]; simp [he]
  · rw [unary_mem_operand_outside f h]; simp [h]

/-- All the operand half of the binary template can do in a memory form. -/
theorem binaryResult_mem_eq_ok {g : Byte → Byte → AluResult} {a : Addr} {i : Index} {s : State}
    {p : AluResult × State} :
    binaryResult g (.mem a i) s = .ok p ↔
      s.pc + 2 ≤ Config.memSize ∧ effAddr a i s + 1 ≤ Config.memSize ∧
        p = (g s.a (s.mem.read (effAddr a i s)), { s with pc := s.pc + 2 }) := by
  by_cases h : s.pc + 2 ≤ Config.memSize
  · by_cases he : effAddr a i s + 1 ≤ Config.memSize
    · rw [binaryResult_mem_inside g h he]; simp [h, he, eq_comm]
    · rw [binaryResult_mem_index_outside g h he]; simp [he]
  · rw [binaryResult_mem_operand_outside g h]; simp [h]

/-! ### Fetch -/

theorem decode_one {op : Byte} {rest : List Byte} (h : opLength op = 1) :
    decode (op :: rest) = .ok (decodeOpcode op 0 0, rest) := by
  simp only [decode, h]

theorem decode_two {op imm : Byte} {rest : List Byte} (h : opLength op = 2) :
    decode (op :: imm :: rest) = .ok (decodeOpcode op imm 0, rest) := by
  simp only [decode, h]

theorem decode_three {op hi lo : Byte} {rest : List Byte} (h : opLength op = 3) :
    decode (op :: hi :: lo :: rest) = .ok (decodeOpcode op 0 (joinBytes hi lo), rest) := by
  simp only [decode, h]

/-- Every opcode has length 1, 2 or 3 (00_scope.md R5). -/
theorem opLength_cases (op : Byte) : opLength op = 1 ∨ opLength op = 2 ∨ opLength op = 3 := by
  revert op
  decide

theorem fetch_of_decode {s : State} {i : Instr} {rest : List Byte} (h : decode (fetchWindow s) = .ok (i, rest)) :
    fetch s = .ok i := by
  rw [fetch, h]

/-- A fetch that fails is out of bounds at the first address above 0xFFFF. -/
theorem fetch_of_reject {s : State} {e : DecodeReject} (h : decode (fetchWindow s) = .error e) :
    fetch s = .error (.outOfBounds (max s.pc Config.memSize)) := by
  rw [fetch, h]
  cases e <;> rfl

theorem step_of_fetch {s : State} {i : Instr} (h : fetch s = .ok i) :
    step s = complete (exec i { s with pc := s.pc + 1 }) := by
  rw [step, cycle, h]

theorem step_of_fetch_fault {s : State} {f : Fault} (h : fetch s = .error f) : step s = .fault f := by
  rw [step, cycle, h]

@[simp] theorem complete_next (s : State) : complete (.next s) = .next s.reportOk := rfl

@[simp] theorem complete_fault (f : Fault) : complete (.fault f) = .fault f := rfl

@[simp] theorem complete_refused (r : Refusal) : complete (.refused r) = .refused r := rfl

/-- A completed step is a completed execution with the status output set to OK. -/
theorem complete_eq_next {o : Host.Outcome State Fault Refusal} {t : State} :
    complete o = .next t ↔ ∃ u, o = .next u ∧ t = u.reportOk := by
  cases o <;> simp [complete, eq_comm]

end Sys2Proof.Machine
end

