-- ==== Sys2Proof/Laws/PerInstr.lean ====
section
/-! SUPPORT. Statements made for each instruction of the syntax. Family EncodeLength: an instruction's bytes are as
many as the length column of 30_encoding.md R64 says, and as its opcode byte alone fixes (R70). -/

namespace Sys2Proof.Laws.EncodeLength

/-- The encoded bytes start with an opcode whose length is the instruction's, and are that many. -/
def Statement (i : Instr) : Prop :=
  i.wellFormed = true → (encode i).length = i.length ∧ ∃ op rest, encode i = op :: rest ∧ opLength op = i.length

theorem reserved_length :
    ∀ {op : Byte}, (op.toNat < 0x40 ∨ (0xA8 ≤ op.toNat ∧ op.toNat < 0xB0) ∨ 0xF0 ≤ op.toNat) → opLength op = 1 := by
  decide

theorem nopLow (op : Byte) : Statement (.nopLow op) := fun h =>
  ⟨rfl, op, [], rfl, reserved_length (.inl (by simpa [Instr.wellFormed] using h))⟩

theorem nopGap (op : Byte) : Statement (.nopGap op) := fun h =>
  ⟨rfl, op, [], rfl, reserved_length (.inr (.inl (by simpa [Instr.wellFormed] using h)))⟩

theorem nopHigh (op : Byte) : Statement (.nopHigh op) := fun h =>
  ⟨rfl, op, [], rfl, reserved_length (.inr (.inr (by simpa [Instr.wellFormed] using h)))⟩

theorem rtn (op : Byte) : Statement (.rtn op) := fun h => by
  have : op = 0x5E ∨ op = 0x5F := by simpa [Instr.wellFormed] using h
  rcases this with rfl | rfl <;> exact ⟨rfl, _, [], rfl, by decide⟩

theorem str (r : Reg) (a : Addr) : Statement (.str r a) := fun _ => ⟨rfl, _, _, rfl, by cases r <;> rfl⟩
theorem strM (a : Addr) (i : Index) : Statement (.strM a i) := fun _ => ⟨rfl, _, _, rfl, by cases i <;> rfl⟩
theorem lod (r : Reg) (a : Addr) : Statement (.lod r a) := fun _ => ⟨rfl, _, _, rfl, by cases r <;> rfl⟩
theorem lodM (a : Addr) (i : Index) : Statement (.lodM a i) := fun _ => ⟨rfl, _, _, rfl, by cases i <;> rfl⟩
theorem lodImm (r : Reg) (n : Byte) : Statement (.lodImm r n) := fun _ => ⟨rfl, _, _, rfl, by cases r <;> rfl⟩
theorem psh (r : Reg) : Statement (.psh r) := fun _ => ⟨rfl, _, _, rfl, by cases r <;> rfl⟩
theorem pll (r : Reg) : Statement (.pll r) := fun _ => ⟨rfl, _, _, rfl, by cases r <;> rfl⟩
theorem jmp (a : Addr) : Statement (.jmp a) := fun _ => ⟨rfl, _, _, rfl, by rfl⟩
theorem cal (a : Addr) : Statement (.cal a) := fun _ => ⟨rfl, _, _, rfl, by rfl⟩
theorem trs (d s : Reg) : Statement (.trs d s) := fun _ => ⟨rfl, _, _, rfl, by cases d <;> cases s <;> rfl⟩
theorem brc (f : CondFlag) (a : Addr) : Statement (.brc f a) := fun _ => ⟨rfl, _, _, rfl, by cases f <;> rfl⟩
theorem brn (f : CondFlag) (a : Addr) : Statement (.brn f a) := fun _ => ⟨rfl, _, _, rfl, by cases f <;> rfl⟩
theorem set (f : CondFlag) : Statement (.set f) := fun _ => ⟨rfl, _, _, rfl, by cases f <;> rfl⟩
theorem clr (f : CondFlag) : Statement (.clr f) := fun _ => ⟨rfl, _, _, rfl, by cases f <;> rfl⟩

/-- The mode-operand instructions: base + m has the length of the operand when the base lies in an OP_MODE row. -/
theorem mode {base : Byte} {i : Instr} {m : Operand} (hi : encode i = modeBytes base m) (hl : i.length = m.length)
    (hr : ∀ r : Reg, opLength (withField base r.bits) = 1)
    (hm : ∀ ix : Index, opLength (withField (base + 4) ix.bits) = 3) : Statement i := fun _ => by
  cases m with
  | reg r => exact ⟨by rw [hi, hl]; rfl, _, _, hi, by rw [hl]; exact hr r⟩
  | mem a ix => exact ⟨by rw [hi, hl]; rfl, _, _, hi, by rw [hl]; exact hm ix⟩

theorem inc (m : Operand) : Statement (.inc m) := mode (base := 0x70) rfl rfl (by rintro (_ | _) <;> decide) (by rintro (_ | _) <;> decide)
theorem dec (m : Operand) : Statement (.dec m) := mode (base := 0x78) rfl rfl (by rintro (_ | _) <;> decide) (by rintro (_ | _) <;> decide)
theorem shl (m : Operand) : Statement (.shl m) := mode (base := 0x80) rfl rfl (by rintro (_ | _) <;> decide) (by rintro (_ | _) <;> decide)
theorem shr (m : Operand) : Statement (.shr m) := mode (base := 0x88) rfl rfl (by rintro (_ | _) <;> decide) (by rintro (_ | _) <;> decide)
theorem rol (m : Operand) : Statement (.rol m) := mode (base := 0x90) rfl rfl (by rintro (_ | _) <;> decide) (by rintro (_ | _) <;> decide)
theorem ror (m : Operand) : Statement (.ror m) := mode (base := 0x98) rfl rfl (by rintro (_ | _) <;> decide) (by rintro (_ | _) <;> decide)
theorem not (m : Operand) : Statement (.not m) := mode (base := 0xA0) rfl rfl (by rintro (_ | _) <;> decide) (by rintro (_ | _) <;> decide)
theorem add (m : Operand) : Statement (.add m) := mode (base := 0xC0) rfl rfl (by rintro (_ | _) <;> decide) (by rintro (_ | _) <;> decide)
theorem sub (m : Operand) : Statement (.sub m) := mode (base := 0xC8) rfl rfl (by rintro (_ | _) <;> decide) (by rintro (_ | _) <;> decide)
theorem and (m : Operand) : Statement (.and m) := mode (base := 0xD0) rfl rfl (by rintro (_ | _) <;> decide) (by rintro (_ | _) <;> decide)
theorem ior (m : Operand) : Statement (.ior m) := mode (base := 0xD8) rfl rfl (by rintro (_ | _) <;> decide) (by rintro (_ | _) <;> decide)
theorem xor (m : Operand) : Statement (.xor m) := mode (base := 0xE0) rfl rfl (by rintro (_ | _) <;> decide) (by rintro (_ | _) <;> decide)
theorem cmp (m : Operand) : Statement (.cmp m) := mode (base := 0xE8) rfl rfl (by rintro (_ | _) <;> decide) (by rintro (_ | _) <;> decide)

end Sys2Proof.Laws.EncodeLength
end

