-- ==== Sys2Proof/Tests/Slice0.lean ====
section
/-! SUPPORT. Tests. Expected results are the vectors of 95_test_vectors.md (their ids stand in the comments) and words
written out from the encodings of 30_encoding.md R62; witnesses show that the statements' hypotheses can be met. -/

namespace Sys2Proof.Tests

open Sys2Proof.Machine Sys2Proof.Spec

/-! ### Helpers -/

/-- `s` with bytes in Memory from an address up. -/
def put (a : Nat) (bytes : List Byte) (s : State) : State := { s with mem := s.mem.writeBytes a bytes }

/-- `s` with bytes in the stack buffer from an index up. -/
def putStk (i : Nat) (bytes : List Byte) (s : State) : State := { s with stk := s.stk.writeBytes i bytes }

/-- The reset state with bytes at 0. -/
def prog (bytes : List Byte) : State := put 0 bytes State.reset

/-- The reset state with pc at an address and bytes there. -/
def progAt (pc : Nat) (bytes : List Byte) : State := { put pc bytes State.reset with pc := pc }

/-- One step completes in a state with a property. -/
def after (s : State) (p : State → Bool) : Bool :=
  match step s with
  | .next t => p t
  | .fault _ => false
  | .refused _ => false

/-- One step raises a fault. -/
def faults (s : State) (f : Fault) : Bool :=
  match step s with
  | .next _ => false
  | .fault g => g == f
  | .refused _ => false

/-- ZF, NF, CF, VF. -/
def zncv (s : State) : List Bool := [s.zf, s.nf, s.cf, s.vf]

/-- The bytes decode, whole, to the instruction. -/
def reads (bytes : List Byte) (i : Instr) : Bool :=
  match decode bytes with
  | .ok (j, rest) => j == i && rest == []
  | .error _ => false

/-- An execution completes. -/
def execNext (i : Instr) (s : State) : Bool :=
  match exec i s with
  | .next _ => true
  | .fault _ => false
  | .refused _ => false

/-- An execution raises a fault. -/
def execFaults (i : Instr) (s : State) (f : Fault) : Bool :=
  match exec i s with
  | .next _ => false
  | .fault g => g == f
  | .refused _ => false

/-! ### WellFormed refuses ill-formed terms -/

theorem test_wf_nopLow_refused : (Instr.nopLow 0x40).wellFormed = false := by decide
theorem test_wf_nopGap_low_refused : (Instr.nopGap 0xA7).wellFormed = false := by decide
theorem test_wf_nopGap_high_refused : (Instr.nopGap 0xB0).wellFormed = false := by decide
theorem test_wf_nopHigh_refused : (Instr.nopHigh 0xEF).wellFormed = false := by decide
theorem test_wf_rtn_refused : (Instr.rtn 0x5D).wellFormed = false ∧ (Instr.rtn 0x60).wellFormed = false := by decide

/-! ### Decoding: words written out bit by bit (30_encoding.md R62, R64) -/

theorem test_decode_nopLow : reads [0b00111111] (.nopLow 0x3F) = true := by decide
theorem test_decode_nopGap : reads [0b10101000] (.nopGap 0xA8) = true := by decide
theorem test_decode_nopHigh : reads [0b11110011] (.nopHigh 0xF3) = true := by decide
theorem test_decode_str : reads [0b01000011, 0b00010010, 0b00110100] (.str .z 0x1234) = true := by decide
theorem test_decode_strM : reads [0b01000110, 0b00100000, 0b00000001] (.strM 0x2001 .y) = true := by decide
theorem test_decode_lod : reads [0b01001001, 0b10000000, 0b00000001] (.lod .x 0x8001) = true := by decide
theorem test_decode_lodM : reads [0b01001100, 0b01000000, 0b00000000] (.lodM 0x4000 .none) = true := by decide
theorem test_decode_lodImm : reads [0b01010010, 0b00101010] (.lodImm .y 0x2A) = true := by decide
theorem test_decode_psh : reads [0b01010111] (.psh .z) = true := by decide
theorem test_decode_pll : reads [0b01011001] (.pll .x) = true := by decide
theorem test_decode_jmp : reads [0b01011100, 0b00010010, 0b00110100] (.jmp 0x1234) = true := by decide
theorem test_decode_cal : reads [0b01011101, 0b00000001, 0b01010100] (.cal 0x0154) = true := by decide
theorem test_decode_rtn : reads [0b01011111] (.rtn 0x5F) = true := by decide
theorem test_decode_trs : reads [0b01101110] (.trs .y .z) = true := by decide
theorem test_decode_inc : reads [0b01110101, 0b00010000, 0b11111111] (.inc (.mem 0x10FF .x)) = true := by decide
theorem test_decode_dec : reads [0b01111011] (.dec (.reg .z)) = true := by decide
theorem test_decode_shl : reads [0b10000010] (.shl (.reg .y)) = true := by decide
theorem test_decode_shr : reads [0b10001111, 0b00101111, 0b11111110] (.shr (.mem 0x2FFE .z)) = true := by decide
theorem test_decode_rol : reads [0b10010100, 0b00110000, 0b00000000] (.rol (.mem 0x3000 .none)) = true := by decide
theorem test_decode_ror : reads [0b10011000] (.ror (.reg .a)) = true := by decide
theorem test_decode_not : reads [0b10100110, 0b00100000, 0b00000000] (.not (.mem 0x2000 .y)) = true := by decide
theorem test_decode_brc : reads [0b10110010, 0b00010010, 0b00110100] (.brc .c 0x1234) = true := by decide
theorem test_decode_brn : reads [0b10110111, 0b00010010, 0b00110100] (.brn .v 0x1234) = true := by decide
theorem test_decode_set : reads [0b10111010] (.set .c) = true := by decide
theorem test_decode_clr : reads [0b10111101] (.clr .n) = true := by decide
theorem test_decode_add : reads [0b11000101, 0b00100000, 0b00000000] (.add (.mem 0x2000 .x)) = true := by decide
theorem test_decode_sub : reads [0b11001001] (.sub (.reg .x)) = true := by decide
theorem test_decode_and : reads [0b11010010] (.and (.reg .y)) = true := by decide
theorem test_decode_ior : reads [0b11011011] (.ior (.reg .z)) = true := by decide
theorem test_decode_xor : reads [0b11100000] (.xor (.reg .a)) = true := by decide
theorem test_decode_cmp : reads [0b11101100, 0b00010000, 0b00000000] (.cmp (.mem 0x1000 .none)) = true := by decide

/-- A table word: byte 0 in bits 7..0, byte 1 in bits 15..8, byte 2 in bits 23..16 (opcode_table.json's numbering). -/
theorem test_table_word : decodeTableWord 24 0x341243 = some (.str .z 0x1234) ∧
    decodeTableWord 16 0x2A52 = some (.lodImm .y 0x2A) ∧ decodeTableWord 8 0x75 = some (.inc (.mem 0 .x)) := by decide

theorem test_fetch_word : after (State.reset.withFetchWord 24 0x341243) (fun t => t.pc == 3) = true := by decide

/-! ### One step each (95_test_vectors.md, L1 and L2) -/

/-- NOP-7 -/
theorem test_nop_reserved_at_top : after (progAt 0xFFFF [0xFF]) (fun t => t == { progAt 0xFFFF [0xFF] with pc := 0x10000 }) = true := by decide

/-- NOP-3 -/
theorem test_nop_gap : after (prog [0xA8]) (fun t => t == { prog [0xA8] with pc := 1 }) = true := by decide

/-- NOP-2 -/
theorem test_nop_low : after (prog [0x3F]) (fun t => t == { prog [0x3F] with pc := 1 }) = true := by decide

/-- NOP-8 -/
theorem test_fetch_at_end : faults (progAt 0x10000 []) (.outOfBounds 0x10000) = true := by decide

/-- LS-2 -/
theorem test_str_self_write : after ({ prog [0x40, 0x00, 0x00] with a := 0x5A }) (fun t => t.mem.read 0 == 0x5A && t.pc == 3) = true := by decide

/-- LS-4 -/
theorem test_str_operand_past_top : faults (progAt 0xFFFE [0x40, 0x20]) (.outOfBounds 0x10000) = true := by decide

/-- LS-5 -/
theorem test_strM_indexed : after ({ prog [0x46, 0x20, 0x00] with a := 0x5A, y := 0x03 }) (fun t => t.mem.read 0x2003 == 0x5A && t.pc == 3) = true := by decide

/-- LS-7 -/
theorem test_strM_index_past_top : faults ({ prog [0x47, 0xFF, 0xFE] with z := 0x02 }) (.outOfBounds 0x10000) = true := by decide

/-- LS-9 -/
theorem test_lod_sets_n : after (put 0x3000 [0x80] (prog [0x49, 0x30, 0x00])) (fun t => t.x == 0x80 && zncv t == [false, true, false, false] && t.pc == 3) = true := by decide

/-- LS-10 -/
theorem test_lod_keeps_c : after ({ prog [0x4A, 0x30, 0x00] with nf := true, cf := true }) (fun t => t.y == 0 && zncv t == [true, false, true, false]) = true := by decide

/-- LS-12 -/
theorem test_lodM_indexed_keeps_flags : after ({ put 0x2005 [0x77] (prog [0x4D, 0x20, 0x00]) with x := 0x05, zf := true }) (fun t => t.a == 0x77 && zncv t == [true, false, false, false]) = true := by decide

/-- LS-14 -/
theorem test_lodM_index_past_top : faults ({ prog [0x4E, 0xFF, 0xFE] with y := 0x02 }) (.outOfBounds 0x10000) = true := by decide

/-- LS-15 -/
theorem test_lodImm_keeps_flags : after (prog [0x53, 0xFF]) (fun t => t.z == 0xFF && zncv t == [false, false, false, false] && t.pc == 2) = true := by decide

/-- LS-17 -/
theorem test_lodImm_past_top : faults (progAt 0xFFFF [0x50]) (.outOfBounds 0x10000) = true := by decide

/-- SC-2 -/
theorem test_psh_to_full : after ({ prog [0x57] with z := 0x22, sp := 254 }) (fun t => t.stk.read 254 == 0x22 && t.sp == 255 && t.pc == 1) = true := by decide

/-- SC-3 -/
theorem test_psh_overflow : faults ({ prog [0x55] with sp := 255 }) (.stackOverflow 255) = true := by decide

/-- SC-4 -/
theorem test_pll_keeps_byte : after (putStk 0 [0x11] { prog [0x5A] with sp := 1 }) (fun t => t.y == 0x11 && t.sp == 0 && t.stk.read 0 == 0x11) = true := by decide

/-- SC-5 -/
theorem test_pll_underflow : faults (prog [0x58]) (.stackUnderflow 0) = true := by decide

/-- SC-6 -/
theorem test_jmp : after (prog [0x5C, 0x12, 0x34]) (fun t => t.pc == 0x1234) = true := by decide

/-- SC-7 -/
theorem test_jmp_self_loop : after (progAt 0x40 [0x5C, 0x00, 0x40]) (fun t => t == progAt 0x40 [0x5C, 0x00, 0x40]) = true := by decide

/-- SC-10 -/
theorem test_cal_return_address : after (progAt 0x1233 [0x5D, 0x40, 0x00]) (fun t => t.stk.read 0 == 0x12 && t.stk.read 1 == 0x35 && t.sp == 2 && t.pc == 0x4000) = true := by decide

/-- SC-13 -/
theorem test_cal_operand_before_stack : faults ({ progAt 0xFFFE [0x5D, 0x01] with sp := 254 }) (.outOfBounds 0x10000) = true := by decide

/-- SC-15 -/
theorem test_rtn : after (putStk 0 [0xAB, 0xCD] { prog [0x5F] with sp := 2 }) (fun t => t.sp == 0 && t.pc == 0xABCD) = true := by decide

/-- SC-16 -/
theorem test_rtn_underflow : faults ({ prog [0x5E] with sp := 1 }) (.stackUnderflow 1) = true := by decide

/-- TR-1 -/
theorem test_trs : after ({ prog [0x64] with a := 5, x := 3 }) (fun t => t.a == 3 && t.x == 3) = true := by decide

/-- TR-2 -/
theorem test_trs_keeps_flags : after ({ prog [0x61] with a := 0x9C }) (fun t => t.x == 0x9C && zncv t == [false, false, false, false]) = true := by decide

/-- UN-24 -/
theorem test_inc_wraps_keeps_v : after ({ prog [0x70] with a := 0xFF, vf := true }) (fun t => t.a == 0 && zncv t == [true, false, true, true]) = true := by decide

/-- UN-5 -/
theorem test_inc_memory_indexed : after ({ put 0x1100 [0xFF] (prog [0x75, 0x10, 0xFF]) with x := 1 }) (fun t => t.mem.read 0x1100 == 0 && zncv t == [true, false, true, false] && t.x == 1 && t.pc == 3) = true := by decide

/-- UN-7 -/
theorem test_dec_borrows : after (prog [0x7B]) (fun t => t.z == 0xFF && zncv t == [false, true, true, false]) = true := by decide

/-- UN-8 -/
theorem test_dec_memory : after (put 0x1000 [0x01] (prog [0x7C, 0x10, 0x00])) (fun t => t.mem.read 0x1000 == 0 && zncv t == [true, false, false, false]) = true := by decide

/-- UN-10 -/
theorem test_shl : after ({ prog [0x80] with a := 0x81 }) (fun t => t.a == 0x02 && zncv t == [false, false, true, false]) = true := by decide

/-- UN-15 -/
theorem test_shr : after ({ prog [0x88] with a := 0xFF }) (fun t => t.a == 0x7F && zncv t == [false, false, true, false]) = true := by decide

/-- UN-16 -/
theorem test_rol_memory : after (put 0x3000 [0x81] (prog [0x94, 0x30, 0x00])) (fun t => t.mem.read 0x3000 == 0x03 && zncv t == [false, false, true, false]) = true := by decide

/-- UN-18 -/
theorem test_rol_no_carry_in : after ({ prog [0x90] with cf := true }) (fun t => t.a == 0 && zncv t == [true, false, false, false]) = true := by decide

/-- UN-20 -/
theorem test_ror : after ({ prog [0x98] with a := 0x01 }) (fun t => t.a == 0x80 && zncv t == [false, true, true, false]) = true := by decide

/-- UN-21 -/
theorem test_not_keeps_c : after ({ prog [0xA0] with a := 0x0F, cf := true }) (fun t => t.a == 0xF0 && zncv t == [false, true, true, false]) = true := by decide

/-- UN-23 -/
theorem test_not_memory : after ({ put 0x2004 [0x55] (prog [0xA6, 0x20, 0x00]) with y := 4 }) (fun t => t.mem.read 0x2004 == 0xAA && t.nf && t.pc == 3) = true := by decide

/-- FB-1 -/
theorem test_brc_taken : after ({ prog [0xB0, 0x00, 0x40] with zf := true }) (fun t => t.pc == 0x40) = true := by decide

/-- FB-8 -/
theorem test_brc_not_taken_faults : faults (progAt 0xFFFE [0xB0, 0x00]) (.outOfBounds 0x10000) = true := by decide

/-- FB-4 -/
theorem test_brn_taken : after (prog [0xB7, 0x12, 0x34]) (fun t => t.pc == 0x1234) = true := by decide

/-- FB-5 -/
theorem test_brn_not_taken : after ({ prog [0xB5, 0x12, 0x34] with nf := true }) (fun t => t.pc == 3) = true := by decide

/-- FB-9 -/
theorem test_set : after (prog [0xBB]) (fun t => zncv t == [false, false, false, true]) = true := by decide

/-- FB-11 -/
theorem test_clr : after ({ prog [0xBD] with nf := true, zf := true }) (fun t => zncv t == [true, false, false, false]) = true := by decide

/-- AL-4 -/
theorem test_add_overflows : after ({ prog [0xC3] with a := 0x80, z := 0x80 }) (fun t => t.a == 0 && zncv t == [true, false, true, true]) = true := by decide

/-- AL-7 -/
theorem test_add_no_carry_in : after ({ prog [0xC1] with cf := true }) (fun t => t.a == 0 && zncv t == [true, false, false, false]) = true := by decide

/-- AL-11 -/
theorem test_sub_borrows_overflows : after ({ prog [0xC9] with a := 0x7F, x := 0xFF }) (fun t => t.a == 0x80 && zncv t == [false, true, true, true]) = true := by decide

/-- AL-10 -/
theorem test_sub_overflow : after ({ prog [0xC9] with a := 0x80, x := 0x01 }) (fun t => t.a == 0x7F && zncv t == [false, false, false, true]) = true := by decide

/-- AL-15 -/
theorem test_and : after ({ prog [0xD2] with a := 0xF0, y := 0x3C, cf := true, vf := true }) (fun t => t.a == 0x30 && zncv t == [false, false, true, true]) = true := by decide

/-- AL-18 -/
theorem test_ior : after ({ prog [0xDB] with a := 0x0F, z := 0xF0 }) (fun t => t.a == 0xFF && zncv t == [false, true, false, false]) = true := by decide

/-- AL-20 -/
theorem test_xor : after ({ prog [0xE0] with a := 0x5A, cf := true }) (fun t => t.a == 0 && zncv t == [true, false, true, false]) = true := by decide

/-- AL-22 -/
theorem test_cmp_keeps_a_and_v : after ({ prog [0xE9] with a := 0x05, x := 0x07, vf := true }) (fun t => t.a == 5 && zncv t == [false, true, true, true]) = true := by decide

/-- AL-24 -/
theorem test_cmp_memory : after ({ put 0x1000 [0x42] (prog [0xEC, 0x10, 0x00]) with a := 0x42 }) (fun t => t.a == 0x42 && zncv t == [true, false, false, false] && t.pc == 3) = true := by decide

/-! ### Encoder, assembly text, host operations, memory form -/

theorem test_encode : encode (.strM 0x2000 .y) = [0x46, 0x20, 0x00] ∧ encode (.trs .y .z) = [0x6E] ∧
    encode (.cmp (.mem 0x1000 .none)) = [0xEC, 0x10, 0x00] ∧ encode (.lodImm .z 0xFF) = [0x53, 0xFF] := by decide

/-- P1's listing. -/
theorem test_assemble_p1 :
    assemble ".org $0000\nLOD A, #5\nLOD X, #3 ; three\nADD X\nSTR A, $1000\nNOP" =
      some (cellsAt 0 [0x50, 0x05, 0x51, 0x03, 0xC1, 0x40, 0x10, 0x00, 0x00]) := by decide

/-- P2's listing: a label and a branch back to it. -/
theorem test_assemble_p2 :
    assemble "LOD X, #3\nLOD A, #0\nloop: ADD X\nDEC X\nBRN ZF, loop\nNOP" =
      some (cellsAt 0 [0x51, 0x03, 0x50, 0x00, 0xC1, 0x79, 0xB4, 0x00, 0x04, 0x00]) := by decide

/-- P3's forward label and second .org. -/
theorem test_assemble_forward_label :
    assemble "CAL sub\n.org $0100\nsub: LOD Y, #7\nRTN" =
      some (cellsAt 0 [0x5D, 0x01, 0x00] ++ cellsAt 0x100 [0x52, 0x07, 0x5E]) := by decide

theorem test_assemble_directives : assemble ".byte $00, 6\n.word $1234" = some (cellsAt 0 [0x00, 0x06, 0x12, 0x34]) ∧
    assemble "LOD A, #256" = none ∧ assemble "JMP nowhere" = none := by decide

/-- A label at 0x10000 may stand, but is no address operand (log 17). -/
theorem test_assemble_label_past_top : assemble "JMP end\n.org $FFFF\nNOP\nend:" = none ∧
    assemble "JMP $1234\n.org $FFFF\nNOP\nend:" =
      some (cellsAt 0 [0x5C, 0x12, 0x34] ++ cellsAt 0xFFFF [0x00]) := by decide

/-- Log 17: a label spelled as a mnemonic can be named, one spelled as a number cannot. -/
theorem test_assemble_label_words : assemble "NOP: JMP NOP" = some (cellsAt 0 [0x5C, 0x00, 0x00]) ∧
    assemble "7: JMP 7" = some (cellsAt 0 [0x5C, 0x00, 0x07]) := by decide

theorem test_disassemble : disassemble (.lodImm .a 0x2A) = "LOD A, #$2A" ∧
    disassemble (.inc (.mem 0x10FF .x)) = "INC $10FF, X" ∧ disassemble (.nopHigh 0xF3) = "NOP ; $F3" ∧
    disassemble (.brc .z 0x0040) = "BRC ZF, $0040" := by decide

/-- HO-1, HO-2 -/
theorem test_reached_end : (hostOp .reachedEnd (progAt 5 [])).1 = .bool false ∧
    hostOp .reachedEnd (progAt 0x10000 []) = (.bool true, State.reset) := by decide

/-- HO-3 -/
theorem test_reset :
    hostOp .reset { put 0x10 [0x77] State.reset with a := 9, zf := true, pc := 0x1234, sp := 3 } =
      (.done, put 0x10 [0x77] State.reset) := by decide

/-- HO-5 -/
theorem test_load_then_cycle : ((hostRun [.load 0 0x50, .load 1 0x2A, .cycle] State.reset).2.a = 0x2A) ∧
    ((hostRun [.load 0 0x50, .load 1 0x2A, .cycle] State.reset).2.pc = 2) := by decide

/-- FB-14 -/
theorem test_inspect_flags : { State.reset with zf := true, cf := true }.snapshot.flags = 0x05 := by decide

/-- P7a -/
theorem test_fault_report : hostOp .cycle (prog [0x5E]) =
    (.status (.fault (.stackUnderflow 0) 0), { prog [0x5E] with status := .fault (.stackUnderflow 0) 0 }) := by decide

/-- SC-16, SC-12, NOP-8: FAULT_CODE and FAULT_INFO. -/
theorem test_fault_codes :
    (hostOp .cycle { prog [0x5E] with sp := 1 }).2.status.faultCode = 3 ∧
    (hostOp .cycle { prog [0x5E] with sp := 1 }).2.status.faultInfo = some 1 ∧
    (hostOp .cycle { prog [0x5D, 0x01, 0x00] with sp := 254 }).2.status.faultCode = 2 ∧
    (hostOp .cycle { prog [0x5D, 0x01, 0x00] with sp := 254 }).2.status.faultInfo = some 254 ∧
    (hostOp .cycle (progAt 0x10000 [])).2.status.faultCode = 1 ∧
    (hostOp .cycle (progAt 0x10000 [])).2.status.faultInfo = some 0x10000 := by decide

/-- R158: the two ends a completed run can have. -/
theorem test_run_ends : (runToEnd 1 (progAt 0x40 [0x5C, 0x00, 0x40])).1 = .selfLoop ∧
    (runToEnd 1 (progAt 0xFFFF [0x00])).1 = .endOfMemory ∧ (runToEnd 1 (prog [0x5E])).1 = .faulted (.stackUnderflow 0) ∧
    (runToEnd 1 (prog [0x00])).1 = .budget := by decide

/-- L1-2 -/
theorem test_big_endian_read :
    (match memRead2 0x2000 (put 0x2000 [0xAB, 0xCD] State.reset) with
      | .ok a => a == 0xABCD
      | .error _ => false) = true := by decide

/-- Writing what an unlisted address holds removes the entry. -/
theorem test_write_canonical : Memory.write [(3, 0x11), (7, 0x22)] 3 0x00 = [(7, 0x22)] ∧
    Memory.write [(3, 0x11), (7, 0x22)] 5 0x33 = [(3, 0x11), (5, 0x33), (7, 0x22)] := by decide

/-! ### Witnesses: each statement's hypotheses can be met, at the boundary values of its clauses -/

/-- A legal state at the end of Memory with a full stack. -/
def edge : State := { State.reset with pc := 0x10000, sp := 255 }

/-- A legal state whose operand bytes are the last two of Memory and whose indexed address is 0xFFFF. -/
def last : State := { State.reset with pc := 0xFFFE, x := 0x05, a := 0x12 }

theorem edge_inv : edge.Inv := ⟨by decide, by decide, by decide⟩
theorem last_inv : last.Inv := ⟨by decide, by decide, by decide⟩

theorem last_readable : OperandReadable (.mem 0xFFFA .x) last := ⟨by decide, by decide⟩

theorem witness_EncodedInstructionDecodesBack :
    (Instr.nopLow 0x3F).wellFormed = true ∧ (Instr.nopGap 0xA8).wellFormed = true ∧
    (Instr.nopGap 0xAF).wellFormed = true ∧ (Instr.nopHigh 0xF0).wellFormed = true ∧
    (Instr.rtn 0x5E).wellFormed = true ∧ (Instr.rtn 0x5F).wellFormed = true ∧
    (Instr.inc (.mem 0xFFFF .z)).wellFormed = true := by decide

theorem witness_DecodedInstructionEncodesBack : decode [0x5F, 0x01] = .ok (.rtn 0x5F, [0x01]) := by rfl

theorem witness_DecoderRejectsOnlyTruncation :
    opLength 0x5C ≤ [(0x12 : Byte), 0x34].length + 1 ∧ [(0x12 : Byte)].length + 1 < opLength 0x5C := by decide

theorem witness_DisassembledTextAssemblesBack :
    (Instr.nopHigh 0xFF).wellFormed = true ∧ (Instr.rtn 0x5F).wellFormed = true ∧
    (Instr.lodM 0x0000 .z).wellFormed = true := by decide

theorem witness_StepRunsDecodedInstruction : decode (fetchWindow (progAt 0xFFFF [0x64])) = .ok (.trs .a .x, []) := by rfl

theorem witness_StepRunsEncodedInstruction :
    (Instr.str .z 0x2000).wellFormed = true ∧
    (progAt 0xFFFD [0x43, 0x20, 0x00]).pc + (encode (.str .z 0x2000)).length ≤ 0x10000 ∧
    ∀ k (h : k < (encode (.str .z 0x2000)).length),
      (progAt 0xFFFD [0x43, 0x20, 0x00]).mem.read ((progAt 0xFFFD [0x43, 0x20, 0x00]).pc + k) =
        (encode (.str .z 0x2000))[k] := by decide

theorem witness_FetchPastTopFaults : edge.pc = 0x10000 ∧
    ((progAt 0xFFFF [0x50]).pc ≤ 0xFFFF ∧
      (progAt 0xFFFF [0x50]).pc + opLength ((progAt 0xFFFF [0x50]).mem.read (progAt 0xFFFF [0x50]).pc) > 0x10000) ∧
    ((progAt 0xFFFE [0x5C]).pc ≤ 0xFFFF ∧
      (progAt 0xFFFE [0x5C]).pc + opLength ((progAt 0xFFFE [0x5C]).mem.read (progAt 0xFFFE [0x5C]).pc) > 0x10000) := by
  decide

theorem witness_StepKeepsInvariant : (progAt 0xFFFF [0xFF]).Inv ∧ after (progAt 0xFFFF [0xFF]) (fun _ => true) = true :=
  ⟨⟨by decide, by decide, by decide⟩, by decide⟩

theorem witness_ExecutionFaultsExactlyAsListed :
    expectedFault (.psh .a) { State.reset with sp := 254 } = none ∧ expectedFault (.psh .a) edge = some (.stackOverflow 255) ∧
    expectedFault (.cal 0) { State.reset with sp := 253 } = none ∧
    expectedFault (.cal 0) { State.reset with sp := 254 } = some (.stackOverflow 254) ∧
    expectedFault (.cal 0) edge = some (.outOfBounds 0x10000) ∧
    expectedFault (.rtn 0x5E) { State.reset with sp := 2 } = none ∧
    expectedFault (.rtn 0x5E) { State.reset with sp := 1 } = some (.stackUnderflow 1) ∧
    expectedFault (.strM 0xFFFA .x) last = none ∧ expectedFault (.strM 0xFFFB .x) last = some (.outOfBounds 0x10000) ∧
    expectedFault (.lodImm .a 0) { State.reset with pc := 0xFFFF } = none ∧
    expectedFault (.lodImm .a 0) edge = some (.outOfBounds 0x10000) := by decide

theorem witness_StatusIsOutputOnly : after (prog [0x64]) (fun _ => true) = true := by decide

theorem witness_OnlyListedRegistersChange : execNext (.trs .a .x) last = true ∧ Reg.y ∉ regsWritten (.trs .a .x) := by decide

theorem witness_OnlyListedRegistersMatter : Reg.a ∉ regsRead (.inc (.mem 0xFFFA .x)) ∧ Reg.a ∉ regsRead (.lodM 0xFFFA .x) ∧
    Reg.x ∉ regsRead (.trs .x .a) := by decide

theorem witness_OnlyListedFlagsChange : execNext (.inc (.mem 0xFFFA .x)) last = true ∧
    CondFlag.v ∉ flagsWritten (.inc (.mem 0xFFFA .x)) := by decide

theorem witness_OnlyBranchesReadFlags : CondFlag.c ∉ flagsRead (.add (.reg .x)) ∧ CondFlag.c ∉ flagsRead (.brc .z 0) := by
  decide

theorem witness_OnlyStoredByteChanges : last.Inv ∧ execNext (.str .x 0x2000) last = true ∧
    execNext (.strM 0xFFFA .x) last = true ∧ storeAddr (.strM 0xFFFA .x) last ≠ some 0xFFFE ∧
    storeAddr (.add (.reg .x)) last ≠ some 0 :=
  ⟨last_inv, by decide, by decide, by decide, by decide⟩

theorem witness_OnlyPushedStackBytesChange : last.Inv ∧ execNext (.psh .x) last = true ∧ execNext (.cal 0) last = true ∧
    1 ∉ stackStores (.psh .x) last ∧ 2 ∉ stackStores (.cal 0) last :=
  ⟨last_inv, by decide, by decide, by decide, by decide⟩

theorem witness_OnlyStackInstructionsReachStack : usesStack (.add (.reg .x)) = false ∧ usesStack (.cal 0) = true ∧
    execNext (.add (.reg .x)) last = true ∧ execNext (.cal 0) last = true ∧ last.Inv :=
  ⟨by decide, by decide, by decide, by decide, last_inv⟩

theorem witness_PcAdvancesByLength : execNext (.lod .x 0) last = true ∧ transfersControl (.lod .x 0) = false := by decide

theorem witness_ReservedOpcodesAreNop : Reserved 0x3F ∧ Reserved 0xA8 ∧ Reserved 0xAF ∧ Reserved 0xF0 ∧ ¬ Reserved 0x40 ∧
    ¬ Reserved 0xA7 ∧ ¬ Reserved 0xB0 ∧ ¬ Reserved 0xEF ∧ Reserved ((progAt 0xFFFF [0xFF]).mem.read 0xFFFF) ∧
    edge.pc = 0x10000 := by
  unfold Reserved; decide

theorem witness_StrStoresRegister : last.pc + 2 ≤ 0x10000 ∧ (edge.pc ≤ 0x10000 ∧ edge.pc + 2 > 0x10000) ∧
    (progAt 0xFFFD [0x43, 0xFF, 0xFE]).Inv ∧ (progAt 0xFFFD [0x43, 0xFF, 0xFE]).pc + 3 ≤ 0x10000 ∧
    ∀ k (h : k < 3), (progAt 0xFFFD [0x43, 0xFF, 0xFE]).mem.read ((progAt 0xFFFD [0x43, 0xFF, 0xFE]).pc + k) =
      (encode (.str .z 0xFFFE))[k] :=
  ⟨by decide, by decide, ⟨by decide, by decide, by decide⟩, by decide, by decide⟩

theorem witness_AccumulatorMemoryMoves : last.pc + 2 ≤ 0x10000 ∧ effAddr 0xFFFA .x last ≤ 0xFFFF := by decide

theorem witness_IndexedAddressNeverWraps :
    last.pc + 2 ≤ 0x10000 ∧ (0xFFFB : Addr).toNat + last.indexValue .x > 0xFFFF := by decide

theorem witness_LodLoadsAndSetsZN : last.pc + 2 ≤ 0x10000 := by decide

theorem witness_LodImmediateLoads : { State.reset with pc := 0xFFFF }.pc + 1 ≤ 0x10000 ∧ edge.pc = 0x10000 := by decide

theorem witness_PshPushesRegister : { edge with sp := 254 }.sp ≠ 255 ∧ edge.Inv ∧ edge.sp = 255 :=
  ⟨by decide, edge_inv, by decide⟩

theorem witness_PllPullsRegister : { State.reset with sp := 1 }.sp ≠ 0 ∧ State.reset.sp = 0 := by decide

theorem witness_JmpSetsPc : last.pc + 2 ≤ 0x10000 ∧ (edge.pc ≤ 0x10000 ∧ edge.pc + 2 > 0x10000) ∧
    (progAt 0xFFFD [0x5C, 0xFF, 0xFD]).atSelfLoop = true := by decide

theorem witness_CalPushesReturnAddress : (last.pc = 0xFFFD + 1 ∧ { last with sp := 253 }.sp.toNat ≤ 253) ∧
    ({ last with pc := 0xFFFF }.pc = 0xFFFE + 1 ∧ edge.pc = 0xFFFF + 1) ∧ 254 ≤ { last with sp := 254 }.sp.toNat := by decide

theorem witness_RtnPullsPc : 2 ≤ { State.reset with sp := 2 }.sp.toNat ∧ { State.reset with sp := 1 }.sp.toNat < 2 ∧
    execNext (.rtn 0x5E) { State.reset with sp := 2 } = true := by decide

theorem witness_CalThenRtnResumes : { last with sp := 253 }.Inv ∧ last.pc = 0xFFFD + 1 ∧ { last with sp := 253 }.sp.toNat ≤ 253 ∧
    ∃ t u : State, exec (.cal 0) { last with sp := 253 } = .next t ∧ u.sp = t.sp ∧ u.pc ≠ t.pc ∧ u.a ≠ t.a ∧
      ∀ k, 253 ≤ k → k ≤ 254 → u.stk.read k = t.stk.read k :=
  ⟨⟨by decide, by decide, by decide⟩, by decide, by decide, _,
    { last with sp := 255, stk := [(253, 0xFF), (254, 0xFF)], pc := 0x4242, a := 0x99 }, rfl, by decide, by decide, by decide,
    by decide⟩

theorem witness_StackHasNoWidthTags : last.Inv ∧ { last with sp := 254 }.sp.toNat ≤ 254 ∧
    { last with sp := 253 }.sp.toNat ≤ 253 ∧ last.pc + 2 ≤ 0x10000 :=
  ⟨last_inv, by decide, by decide, by decide⟩

theorem witness_IncDecResults : OperandReadable (.reg .a) edge ∧ OperandReadable (.mem 0xFFFA .x) last :=
  ⟨trivial, last_readable⟩

theorem witness_ShiftResults : OperandReadable (.reg .x) edge ∧ OperandReadable (.mem 0xFFFA .x) last :=
  ⟨trivial, last_readable⟩

theorem witness_RotateAndNotResults : OperandReadable (.reg .y) edge ∧ OperandReadable (.mem 0xFFFA .x) last :=
  ⟨trivial, last_readable⟩

theorem witness_BranchesFollowFlag : last.pc + 2 ≤ 0x10000 ∧
    ({ last with pc := 0xFFFF }.pc ≤ 0x10000 ∧ { last with pc := 0xFFFF }.pc + 2 > 0x10000) := by decide

theorem witness_SetAndClrWriteFlag : State.reset.flag .z = false ∧ CondFlag.n ≠ .z ∧
    (match exec (.add (.reg .a)) { State.reset with a := 0x40 } with
      | .next t => t.flag .v != false
      | .fault _ => false
      | .refused _ => false) = true := by decide

theorem witness_CompareThenBranch : OperandReadable (.reg .x) last ∧
    (match exec (.cmp (.reg .x)) last with
      | .next t => decide (t.pc + 2 ≤ 0x10000)
      | .fault _ => false
      | .refused _ => false) = true :=
  ⟨trivial, by decide⟩

theorem witness_AddResult : OperandReadable (.reg .a) edge ∧ OperandReadable (.mem 0xFFFA .x) last := ⟨trivial, last_readable⟩

theorem witness_SubResult : OperandReadable (.reg .x) edge ∧ OperandReadable (.mem 0xFFFA .x) last := ⟨trivial, last_readable⟩

theorem witness_LogicResults : OperandReadable (.reg .y) edge ∧ OperandReadable (.mem 0xFFFA .x) last :=
  ⟨trivial, last_readable⟩

theorem witness_CmpResult : OperandReadable (.reg .z) edge ∧ OperandReadable (.mem 0xFFFA .x) last := ⟨trivial, last_readable⟩

theorem witness_OverflowIsSignedOverflow : OperandReadable (.reg .a) edge ∧ OperandReadable (.mem 0xFFFA .x) last :=
  ⟨trivial, last_readable⟩

theorem witness_FaultingCycleOnlyReports : step (prog [0x5E]) = .fault (.stackUnderflow 0) ∧
    step { prog [0x55] with sp := 255 } = .fault (.stackOverflow 255) ∧
    step (progAt 0x10000 []) = .fault (.outOfBounds 0x10000) := ⟨by rfl, by rfl, by rfl⟩

theorem witness_ReachedEndWrapsOnce : edge.pc = 0x10000 ∧ { edge with pc := 0xFFFF }.pc < 0x10000 := by decide

theorem witness_LoadWritesOneByte : { edge with pc := 0xFFFF }.Inv ∧ { edge with pc := 0xFFFF }.pc = (0xFFFF : Addr).toNat ∧
    Reserved 0xFF ∧ 0 ≠ (0xFFFF : Addr).toNat :=
  ⟨⟨by decide, by decide, by decide⟩, by decide, by unfold Reserved; decide, by decide⟩

theorem witness_BootLoadsImage : ([] : List Byte).length ≤ 0x10000 ∧ (List.replicate 0x10000 (0xFF : Byte)).length ≤ 0x10000 :=
  ⟨by decide, le_of_eq List.length_replicate⟩

theorem witness_HostOperationsKeepInvariant : edge.Inv := edge_inv

theorem witness_CoresShareNothing : (0 : Nat) ≠ 1 := by decide

theorem witness_StackBytesFromSpOnUnobservable : { edge with pc := 0, sp := 1, stk := [(0, 0x11), (1, 0x22)] }.Inv ∧
    Memory.wf 256 [(0, 0x11)] = true ∧
    ∀ j < ({ edge with pc := 0, sp := 1, stk := [(0, 0x11), (1, 0x22)] } : State).sp.toNat,
      Memory.read [(0, 0x11)] j =
        ({ edge with pc := 0, sp := 1, stk := [(0, 0x11), (1, 0x22)] } : State).stk.read j :=
  ⟨⟨by decide, by decide, by decide⟩, by decide, by decide⟩

theorem witness_StoredOpcodeRunsNext :
    { progAt 0xFFFC [0x40, 0xFF, 0xFF] with a := 0xFF }.Inv ∧ 0xFFFC + 3 ≤ 0xFFFF ∧
    opLength ({ progAt 0xFFFC [0x40, 0xFF, 0xFF] with a := 0xFF }.reg .a) = 1 ∧
    ∀ k (h : k < 3), (progAt 0xFFFC [0x40, 0xFF, 0xFF]).mem.read (0xFFFC + k) =
      (encode (.str .a (BitVec.ofNat 16 (0xFFFC + 3))))[k] :=
  ⟨⟨by decide, by decide, by decide⟩, by decide, by decide, by decide⟩

end Sys2Proof.Tests
end

section
/-! PROOFS. The stack buffer is separate from Memory (10_state.md R28). What an operation does not depend on it commutes
with: running it after replacing that part of the state is replacing it afterwards. The shared operations and templates
commute with replacing sp and the stack buffer, and those of PSH, PLL, CAL and RTN with replacing Memory. That an
instruction also leaves such a part unchanged follows, since replacing it by itself changes nothing. -/

namespace Sys2Proof.Machine

open Sys2Proof.Spec

/-- The state with another stack pointer and another stack buffer. -/
def State.withStack (k : Memory) (p : Byte) (s : State) : State := { s with stk := k, sp := p }

/-- The state with another Memory. -/
def State.withMem (m : Memory) (s : State) : State := { s with mem := m }

/-! ### Commuting through a sequence -/

theorem bind_map_commutes {α β : Type} {g : α → α} {f : β → β} {e e' : Except Fault α}
    {c c' : α → Except Fault β} (he : e' = e.map g) (hc : ∀ u, c' (g u) = (c u).map f) :
    (e' >>= c') = (e >>= c).map f := by
  subst he
  cases e with
  | ok u => exact hc u
  | error _ => rfl

theorem finish_map (f : State → State) (e : Except Fault State) : finish (e.map f) = mapNext f (finish e) := by
  cases e <;> rfl

theorem finish_bind_commutes {α : Type} {g : α → α} {f : State → State} {e e' : Except Fault α}
    {c c' : α → Except Fault State} (he : e' = e.map g) (hc : ∀ u, c' (g u) = (c u).map f) :
    finish (e' >>= c') = mapNext f (finish (e >>= c)) := by
  rw [bind_map_commutes he hc, finish_map]

/-- An operand fetch commutes with every change of the state that pc takes no part in. -/
theorem passOperand_map {n : Nat} {f : State → State} {s : State} (hpc : (f s).pc = s.pc)
    (hf : ∀ q, f { s with pc := q } = { f s with pc := q }) : passOperand n (f s) = (passOperand n s).map f := by
  by_cases h : s.pc + n ≤ Config.memSize
  · rw [passOperand_inside h, passOperand_inside (hpc ▸ h), hpc, ← hf]; rfl
  · rw [passOperand_outside h, passOperand_outside (hpc ▸ h), hpc]; rfl

/-! ### Replacing sp and the stack buffer -/

section
variable (k : Memory) (p : Byte) (s : State)

@[simp] theorem withStack_stk : (s.withStack k p).stk = k := rfl

@[simp] theorem withStack_sp : (s.withStack k p).sp = p := rfl

@[simp] theorem reg_withStack (r : Reg) : (s.withStack k p).reg r = s.reg r := by cases r <;> rfl

@[simp] theorem flag_withStack (f : CondFlag) : (s.withStack k p).flag f = s.flag f := by cases f <;> rfl

@[simp] theorem effAddr_withStack (a : Addr) (i : Index) : effAddr a i (s.withStack k p) = effAddr a i s := by
  cases i <;> rfl

@[simp] theorem setReg_withStack (r : Reg) (v : Byte) :
    (s.withStack k p).setReg r v = (s.setReg r v).withStack k p := by cases r <;> rfl

@[simp] theorem setFlag_withStack (f : CondFlag) (b : Bool) :
    (s.withStack k p).setFlag f b = (s.setFlag f b).withStack k p := by cases f <;> rfl

@[simp] theorem setAluFlags_withStack (r : AluResult) :
    setAluFlags r (s.withStack k p) = (setAluFlags r s).withStack k p := by
  rcases r with ⟨v, _ | _, _ | _⟩ <;> rfl

@[simp] theorem memRead_withStack (ea : Nat) : memRead ea (s.withStack k p) = memRead ea s := rfl

theorem memWrite_withStack (ea : Nat) (v : Byte) :
    memWrite ea v (s.withStack k p) = (memWrite ea v s).map (State.withStack k p) := by
  unfold memWrite
  cases boundsCheck ea 1 <;> rfl

theorem fetchAddr_withStack : fetchAddr (s.withStack k p) = (fetchAddr s).map (State.withStack k p) :=
  passOperand_map rfl fun _ => rfl

theorem fetchImm8_withStack : fetchImm8 (s.withStack k p) = (fetchImm8 s).map (State.withStack k p) :=
  passOperand_map rfl fun _ => rfl

theorem resolveMem_withStack (a : Addr) (i : Index) :
    resolveMem a i (s.withStack k p) = (resolveMem a i s).map (Prod.map id (State.withStack k p)) :=
  bind_map_commutes (fetchAddr_withStack k p s) fun u => by
    simp only [effAddr_withStack]
    cases boundsCheck (effAddr a i u) 1 <;> rfl

theorem resolve_withStack (m : Operand) :
    resolve m (s.withStack k p) = (resolve m s).map (Prod.map id (State.withStack k p)) := by
  cases m with
  | reg r => rfl
  | mem a i => exact bind_map_commutes (resolveMem_withStack k p s a i) fun _ => rfl

@[simp] theorem readMR_withStack (loc : Loc) : readMR loc (s.withStack k p) = readMR loc s := by
  cases loc with
  | reg r => rw [readMR_reg, readMR_reg, reg_withStack]
  | mem ea => rfl

theorem writeMR_withStack (loc : Loc) (v : Byte) :
    writeMR loc v (s.withStack k p) = (writeMR loc v s).map (State.withStack k p) := by
  cases loc with
  | reg r => rw [writeMR_reg, writeMR_reg, setReg_withStack]; rfl
  | mem ea => exact memWrite_withStack k p s ea v

/-! ### The templates and the remaining meanings -/

theorem unary_withStack (f : Byte → AluResult) (m : Operand) :
    unary f m (s.withStack k p) = mapNext (State.withStack k p) (unary f m s) :=
  finish_bind_commutes (resolve_withStack k p s m) fun ⟨loc, u⟩ => by
    simp only [Prod.map, id, readMR_withStack]
    cases readMR loc u with
    | error _ => rfl
    | ok v =>
      simp only [bind_ok]
      exact bind_map_commutes (writeMR_withStack k p u loc _) fun t => by rw [setAluFlags_withStack]; rfl

theorem binaryResult_withStack (g : Byte → Byte → AluResult) (m : Operand) :
    binaryResult g m (s.withStack k p) = (binaryResult g m s).map (Prod.map id (State.withStack k p)) :=
  bind_map_commutes (resolve_withStack k p s m) fun ⟨loc, u⟩ => by
    simp only [Prod.map, id, readMR_withStack, reg_withStack]
    cases readMR loc u <;> rfl

theorem binary_withStack (g : Byte → Byte → AluResult) (m : Operand) :
    binary g m (s.withStack k p) = mapNext (State.withStack k p) (binary g m s) :=
  finish_bind_commutes (binaryResult_withStack k p s g m) fun ⟨r, u⟩ => by
    simp only [Prod.map, id, setReg_withStack, setAluFlags_withStack]; rfl

theorem flagsOnly_withStack (g : Byte → Byte → AluResult) (m : Operand) :
    flagsOnly g m (s.withStack k p) = mapNext (State.withStack k p) (flagsOnly g m s) :=
  finish_bind_commutes (binaryResult_withStack k p s g m) fun ⟨r, u⟩ => by
    simp only [Prod.map, id, setAluFlags_withStack]; rfl

theorem branchIf_withStack (taken : Bool) (a : Addr) :
    branchIf taken a (s.withStack k p) = mapNext (State.withStack k p) (branchIf taken a s) :=
  finish_bind_commutes (fetchAddr_withStack k p s) fun _ => by cases taken <;> rfl

theorem execStr_withStack (r : Reg) (a : Addr) :
    execStr r a (s.withStack k p) = mapNext (State.withStack k p) (execStr r a s) :=
  finish_bind_commutes (fetchAddr_withStack k p s) fun u => by
    rw [reg_withStack, memWrite_withStack]

theorem execStrM_withStack (a : Addr) (i : Index) :
    execStrM a i (s.withStack k p) = mapNext (State.withStack k p) (execStrM a i s) :=
  finish_bind_commutes (resolveMem_withStack k p s a i) fun ⟨ea, u⟩ => memWrite_withStack k p u ea u.a

theorem execLod_withStack (r : Reg) (a : Addr) :
    execLod r a (s.withStack k p) = mapNext (State.withStack k p) (execLod r a s) :=
  finish_bind_commutes (fetchAddr_withStack k p s) fun u => by
    simp only [memRead_withStack, setReg_withStack]
    cases memRead a.toNat u <;> rfl

theorem execLodM_withStack (a : Addr) (i : Index) :
    execLodM a i (s.withStack k p) = mapNext (State.withStack k p) (execLodM a i s) :=
  finish_bind_commutes (resolveMem_withStack k p s a i) fun ⟨ea, u⟩ => by
    simp only [Prod.map, id, memRead_withStack]
    cases memRead ea u <;> rfl

theorem execLodImm_withStack (r : Reg) (n : Byte) :
    execLodImm r n (s.withStack k p) = mapNext (State.withStack k p) (execLodImm r n s) :=
  finish_bind_commutes (fetchImm8_withStack k p s) fun u => by rw [setReg_withStack]; rfl

theorem execJmp_withStack (a : Addr) :
    execJmp a (s.withStack k p) = mapNext (State.withStack k p) (execJmp a s) :=
  finish_bind_commutes (fetchAddr_withStack k p s) fun _ => rfl

/-- An instruction other than PSH, PLL, CAL and RTN does not depend on sp and the stack buffer. -/
theorem exec_withStack {i : Instr} (hi : usesStack i = false) :
    exec i (s.withStack k p) = mapNext (State.withStack k p) (exec i s) := by
  cases i with
  | psh | pll | cal | rtn => cases hi
  | nopLow | nopGap | nopHigh => rfl
  | str r a => exact execStr_withStack k p s r a
  | strM a i => exact execStrM_withStack k p s a i
  | lod r a => exact execLod_withStack k p s r a
  | lodM a i => exact execLodM_withStack k p s a i
  | lodImm r n => exact execLodImm_withStack k p s r n
  | jmp a => exact execJmp_withStack k p s a
  | trs d r => exact congrArg Host.Outcome.next (by rw [reg_withStack, setReg_withStack])
  | inc m | dec m | shl m | shr m | rol m | ror m | not m => exact unary_withStack k p s _ m
  | brc f a => rw [exec, exec, execBrc, execBrc, flag_withStack, branchIf_withStack]
  | brn f a => rw [exec, exec, execBrn, execBrn, flag_withStack, branchIf_withStack]
  | set f | clr f => exact congrArg Host.Outcome.next (setFlag_withStack k p s f _)
  | add m | sub m | and m | ior m | xor m => exact binary_withStack k p s _ m
  | cmp m => exact flagsOnly_withStack k p s _ m

end

/-! ### Replacing Memory -/

section
variable (m : Memory) (s : State)

@[simp] theorem withMem_mem : (s.withMem m).mem = m := rfl

@[simp] theorem reg_withMem (r : Reg) : (s.withMem m).reg r = s.reg r := by cases r <;> rfl

@[simp] theorem setReg_withMem (r : Reg) (v : Byte) :
    (s.withMem m).setReg r v = (s.setReg r v).withMem m := by cases r <;> rfl

theorem fetchAddr_withMem : fetchAddr (s.withMem m) = (fetchAddr s).map (State.withMem m) :=
  passOperand_map rfl fun _ => rfl

theorem push8_withMem (v : Byte) : push8 v (s.withMem m) = (push8 v s).map (State.withMem m) := by
  by_cases h : s.sp.toNat + 1 ≤ Config.spMax
  · rw [push8_inside h]; exact push8_inside h
  · rw [push8_full h]; exact push8_full h

theorem push16_withMem (v : Addr) : push16 v (s.withMem m) = (push16 v s).map (State.withMem m) := by
  by_cases h : s.sp.toNat + 2 ≤ Config.spMax
  · rw [push16_inside h]; exact push16_inside h
  · rw [push16_full h]; exact push16_full h

theorem pull8_withMem : pull8 (s.withMem m) = (pull8 s).map (Prod.map id (State.withMem m)) := by
  by_cases h : 1 ≤ s.sp.toNat
  · rw [pull8_inside h]; exact pull8_inside h
  · rw [pull8_empty h]; exact pull8_empty h

theorem pull16_withMem : pull16 (s.withMem m) = (pull16 s).map (Prod.map id (State.withMem m)) := by
  by_cases h : 2 ≤ s.sp.toNat
  · rw [pull16_inside h]; exact pull16_inside h
  · rw [pull16_empty h]; exact pull16_empty h

theorem execPsh_withMem (r : Reg) : execPsh r (s.withMem m) = mapNext (State.withMem m) (execPsh r s) := by
  rw [execPsh, execPsh, reg_withMem, push8_withMem, finish_map]

theorem execPll_withMem (r : Reg) : execPll r (s.withMem m) = mapNext (State.withMem m) (execPll r s) :=
  finish_bind_commutes (pull8_withMem m s) fun ⟨v, u⟩ => by
    simp only [Prod.map, id, setReg_withMem]; rfl

theorem execCal_withMem (a : Addr) : execCal a (s.withMem m) = mapNext (State.withMem m) (execCal a s) :=
  finish_bind_commutes (fetchAddr_withMem m s) fun u =>
    bind_map_commutes (push16_withMem m u (returnAddress s)) fun _ => rfl

theorem execRtn_withMem : execRtn (s.withMem m) = mapNext (State.withMem m) (execRtn s) :=
  finish_bind_commutes (pull16_withMem m s) fun _ => rfl

/-- PSH, PLL, CAL and RTN do not depend on Memory. -/
theorem exec_withMem {i : Instr} (hi : usesStack i = true) :
    exec i (s.withMem m) = mapNext (State.withMem m) (exec i s) := by
  cases i with
  | psh r => exact execPsh_withMem m s r
  | pll r => exact execPll_withMem m s r
  | cal a => exact execCal_withMem m s a
  | rtn op => exact execRtn_withMem m s
  | _ => cases hi

end

/-! ### What is left unchanged -/

theorem stack_eq_of_exec {i : Instr} {s t : State} (hi : usesStack i = false) (h : exec i s = .next t) :
    t.stk = s.stk ∧ t.sp = s.sp := by
  have hself : exec i s = mapNext (State.withStack s.stk s.sp) (exec i s) := exec_withStack s.stk s.sp s hi
  rw [h] at hself
  have ht : t = t.withStack s.stk s.sp := Host.Outcome.next.inj hself
  exact ⟨by rw [ht, withStack_stk], by rw [ht, withStack_sp]⟩

theorem mem_eq_of_exec {i : Instr} {s t : State} (hi : usesStack i = true) (h : exec i s = .next t) :
    t.mem = s.mem := by
  have hself : exec i s = mapNext (State.withMem s.mem) (exec i s) := exec_withMem s.mem s hi
  rw [h] at hself
  have ht : t = t.withMem s.mem := Host.Outcome.next.inj hself
  rw [ht, withMem_mem]

/-- No execution changes a byte at an index past the stack buffer: every push lands below 255. -/
theorem stk_read_beyond_of_exec {i : Instr} {s t : State} (hs : s.stk.wf 256 = true)
    (h : exec i s = .next t) {c : Nat} (hc : 256 ≤ c) : t.stk.read c = s.stk.read c := by
  by_cases hi : usesStack i = false
  · rw [(stack_eq_of_exec hi h).1]
  cases i with
  | psh r =>
    obtain ⟨hsp, rfl⟩ := push8_eq_ok.mp (finish_eq_next.mp h)
    have hsp : s.sp.toNat + 1 ≤ 255 := hsp
    exact Memory.read_write_other hs _ (by omega)
  | pll r =>
    obtain ⟨⟨v, u⟩, hpull, ht⟩ := bind_eq_ok.mp (finish_eq_next.mp h)
    obtain ⟨-, hu⟩ := pull8_eq_ok.mp hpull
    cases hu; cases ht
    rw [setReg_stk]
  | cal a =>
    obtain ⟨u, hfetch, h⟩ := bind_eq_ok.mp (finish_eq_next.mp h)
    obtain ⟨w, hpush, ht⟩ := bind_eq_ok.mp h
    obtain ⟨-, rfl⟩ := passOperand_eq_ok.mp hfetch
    obtain ⟨hsp, rfl⟩ := push16_eq_ok.mp hpush
    have hsp : s.sp.toNat + 2 ≤ 255 := hsp
    cases ht
    have hwf : (s.stk.write s.sp.toNat (highByte (returnAddress s))).wf 256 = true :=
      Memory.write_wf hs _ (by omega)
    calc ((s.stk.write s.sp.toNat (highByte (returnAddress s))).write (s.sp.toNat + 1) _).read c
        = (s.stk.write s.sp.toNat (highByte (returnAddress s))).read c := Memory.read_write_other hwf _ (by omega)
      _ = s.stk.read c := Memory.read_write_other hs _ (by omega)
  | rtn op =>
    obtain ⟨⟨v, u⟩, hpull, ht⟩ := bind_eq_ok.mp (finish_eq_next.mp h)
    obtain ⟨-, hu⟩ := pull16_eq_ok.mp hpull
    cases hu; cases ht
    rfl
  | _ => exact absurd rfl hi

/-- Settles O21: the operations commute with replacing the part they do not depend on, which also gives that they leave
it unchanged; a push lands inside the stack buffer. -/
theorem onlyStackInstructionsReachStack : Obligations.OnlyStackInstructionsReachStack :=
  ⟨fun _ s k p hi => exec_withStack k p s hi,
    fun _ _ _ hi h => stack_eq_of_exec hi h,
    fun _ s m hi => exec_withMem m s hi,
    fun _ _ _ hi h => mem_eq_of_exec hi h,
    fun _ _ _ ⟨_, _, hstk⟩ h _ hc => stk_read_beyond_of_exec hstk h hc⟩

end Sys2Proof.Machine
end

section
/-! PROOFS. STR r, $a (41_load_store.md R82): its three bytes, what it does when its operand fits below the top of
Memory and when it does not, the whole Cycle, and that `STR A, $a` is `STR.M $a`. -/

namespace Sys2Proof.Machine

open Sys2Proof.Spec

/-! ### Encoding -/

theorem withField_reg_bits (r : Reg) : withField 0x40 r.bits = BitVec.ofNat 8 (0x40 + regNumber r) := by
  cases r <;> rfl

/-- The two operand bytes after a STR opcode are its address, high byte first. -/
theorem decode_str (r : Reg) (hi lo : Byte) (rest : List Byte) :
    decode (withField 0x40 r.bits :: hi :: lo :: rest) = .ok (.str r (joinBytes hi lo), rest) := by
  have hlen : opLength (withField 0x40 r.bits) = 3 := by cases r <;> rfl
  have hop : decodeOpcode (withField 0x40 r.bits) 0 (joinBytes hi lo) = .str r (joinBytes hi lo) := by
    cases r <;> rfl
  rw [decode_three hlen, hop]

/-! ### Execution -/

theorem exec_str_inside {s : State} (h : s.pc + 2 ≤ Config.memSize) (r : Reg) (a : Addr) :
    exec (.str r a) s = .next { s with pc := s.pc + 2, mem := s.mem.write a.toNat (s.reg r) } := by
  rw [exec, execStr, fetchAddr_inside h, bind_ok, memWrite_inside (addr_inside a), finish_ok, reg_with_pc]

theorem exec_str_outside {s : State} (h : ¬ s.pc + 2 ≤ Config.memSize) (r : Reg) (a : Addr) :
    exec (.str r a) s = .fault (.outOfBounds (max s.pc Config.memSize)) := by
  rw [exec, execStr, fetchAddr_outside h, bind_error, finish_error]

/-- Without an index, the bounds check of the effective address always passes, so that only the operand fetch of STR.M
can fault, as in STR. -/
theorem exec_strM_none_eq_str (a : Addr) (s : State) : exec (.strM a .none) s = exec (.str .a a) s := by
  by_cases h : s.pc + 2 ≤ Config.memSize
  · have hea : effAddr a .none s + 1 ≤ Config.memSize := addr_inside a
    rw [exec_str_inside h, exec, execStrM, resolveMem_inside h hea, bind_ok]
    exact congrArg finish (memWrite_inside hea _ _)
  · rw [exec_str_outside h, exec, execStrM, resolveMem_operand_outside h, bind_error, finish_error]

/-! ### The whole Cycle -/

/-- Three bytes below the top of Memory are all that a fetch reads. -/
theorem fetchWindow_inside {s : State} (h : s.pc + 3 ≤ Config.memSize) :
    fetchWindow s = [s.mem.read s.pc, s.mem.read (s.pc + 1), s.mem.read (s.pc + 2)] := by
  rw [fetchWindow, maxLength, Memory.window_succ (by omega), Memory.window_succ (by omega),
    Memory.window_succ (by omega), Memory.window]

theorem fetch_str {r : Reg} {a : Addr} {s : State} (h : s.pc + 3 ≤ Config.memSize)
    (hbytes : ∀ k (hk : k < 3), s.mem.read (s.pc + k) = (encode (.str r a))[k]) : fetch s = .ok (.str r a) := by
  have hop : s.mem.read s.pc = withField 0x40 r.bits := hbytes 0 (by decide)
  have hhi : s.mem.read (s.pc + 1) = highByte a := hbytes 1 (by decide)
  have hlo : s.mem.read (s.pc + 2) = lowByte a := hbytes 2 (by decide)
  have hdecode : decode (fetchWindow s) = .ok (.str r (joinBytes (highByte a) (lowByte a)), []) := by
    rw [fetchWindow_inside h, hop, hhi, hlo, decode_str]
  rw [fetch_of_decode hdecode, joinBytes_high_low]

/-- The bytes are fetched before the store, so that the store may hit one of them. -/
theorem step_str {r : Reg} {a : Addr} {s : State} (h : s.pc + 3 ≤ Config.memSize)
    (hbytes : ∀ k (hk : k < 3), s.mem.read (s.pc + k) = (encode (.str r a))[k]) :
    step s = .next { s with pc := s.pc + 3, mem := s.mem.write a.toNat (s.reg r), status := .ok } := by
  rw [step_of_fetch (fetch_str h hbytes), exec_str_inside h, reg_with_pc, complete_next]
  rfl

/-- Settles O24: only the operand fetch can fault, since every address operand lies in Memory. -/
theorem strStoresRegister : Obligations.StrStoresRegister := by
  refine ⟨fun r hi lo => ?encoding, fun r a s h => exec_str_inside h r a, fun r a s hpc h => ?fault,
    fun r a s hinv h hbytes => ?cycle, fun a s => (exec_strM_none_eq_str a s).symm⟩
  case encoding => rw [← withField_reg_bits, decode_str]
  case fault => rw [exec_str_outside (Nat.not_le.mpr h), max_eq_right hpc]
  case cycle =>
    obtain ⟨-, hmem, -⟩ := hinv
    exact ⟨_, step_str h hbytes, rfl, Memory.read_write_same hmem _ _,
      fun b hb => Memory.read_write_other hmem _ hb⟩

end Sys2Proof.Machine
end

section
/-! PROOFS. PSH, PLL and RTN (42_stack_control.md R90, R91, R95): the byte of each, what it does when the stack controller
lets it through, and its fault when it does not. The model moves sp by arithmetic modulo 256, the rules by numbers; inside
the controller's bounds the two agree. -/

namespace Sys2Proof.Machine

open Sys2Proof.Spec

/-! ### The stack pointer as a number -/

theorem ofNat_toNat_succ (p : Byte) : BitVec.ofNat 8 (p.toNat + 1) = p + 1#8 := by
  rw [BitVec.ofNat_add, BitVec.ofNat_toNat, BitVec.setWidth_eq]

theorem ofNat_toNat_sub {p : Byte} {n : Nat} (h : n ≤ p.toNat) :
    BitVec.ofNat 8 (p.toNat - n) = p - BitVec.ofNat 8 n := by
  rw [← BitVec.ofNat_sub_ofNat_of_le _ _ (Nat.lt_of_le_of_lt h p.isLt) h, BitVec.ofNat_toNat, BitVec.setWidth_eq]

theorem setReg_with_sp (s : State) (p : Byte) (r : Reg) (v : Byte) :
    State.setReg { s with sp := p } r v = { s.setReg r v with sp := p } := by cases r <;> rfl

/-! ### PSH -/

theorem decode_psh (r : Reg) (rest : List Byte) :
    decode (BitVec.ofNat 8 (0x54 + regNumber r) :: rest) = .ok (.psh r, rest) := by
  have hlen : opLength (BitVec.ofNat 8 (0x54 + regNumber r)) = 1 := by cases r <;> rfl
  have hop : decodeOpcode (BitVec.ofNat 8 (0x54 + regNumber r)) 0 0 = .psh r := by cases r <;> rfl
  rw [decode_one hlen, hop]

theorem exec_psh_inside {s : State} (h : s.sp.toNat + 1 ≤ Config.spMax) (r : Reg) :
    exec (.psh r) s = .next { s with
      stk := s.stk.write s.sp.toNat (s.reg r), sp := BitVec.ofNat 8 (s.sp.toNat + 1) } := by
  rw [ofNat_toNat_succ]
  exact congrArg finish (push8_inside h)

theorem exec_psh_full {s : State} (h : ¬ s.sp.toNat + 1 ≤ Config.spMax) (r : Reg) :
    exec (.psh r) s = .fault (.stackOverflow s.sp) := by
  rw [exec, execPsh, push8_full h, finish_error]

/-- Settles O29: sp = 255 is the one value at which a byte push does not fit. -/
theorem pshPushesRegister : Obligations.PshPushesRegister := by
  refine ⟨fun r => decode_psh r [], fun r s hsp => ?push, fun r s hinv => ?stored, fun r s hsp => ?overflow⟩
  case push =>
    have hroom : s.sp.toNat + 1 ≤ 255 := by bv_omega
    exact exec_psh_inside hroom r
  case stored =>
    obtain ⟨-, -, hstk⟩ := hinv
    exact Memory.read_write_same hstk _ _
  case overflow =>
    have hfull : ¬ s.sp.toNat + 1 ≤ 255 := by rw [hsp]; decide
    rw [exec_psh_full hfull, hsp]

/-! ### PLL -/

theorem decode_pll (r : Reg) (rest : List Byte) :
    decode (BitVec.ofNat 8 (0x58 + regNumber r) :: rest) = .ok (.pll r, rest) := by
  have hlen : opLength (BitVec.ofNat 8 (0x58 + regNumber r)) = 1 := by cases r <;> rfl
  have hop : decodeOpcode (BitVec.ofNat 8 (0x58 + regNumber r)) 0 0 = .pll r := by cases r <;> rfl
  rw [decode_one hlen, hop]

theorem exec_pll_inside {s : State} (h : 1 ≤ s.sp.toNat) (r : Reg) :
    exec (.pll r) s = .next { s.setReg r (s.stk.read (s.sp.toNat - 1)) with
      sp := BitVec.ofNat 8 (s.sp.toNat - 1) } := by
  rw [ofNat_toNat_sub h, exec, execPll, pull8_inside h]
  exact congrArg Host.Outcome.next (setReg_with_sp s _ r _)

theorem exec_pll_empty {s : State} (h : ¬ 1 ≤ s.sp.toNat) (r : Reg) :
    exec (.pll r) s = .fault (.stackUnderflow s.sp) := by
  rw [exec, execPll, pull8_empty h, bind_error, finish_error]

/-- Settles O30: sp = 0 is the one value at which there is no byte to pull. -/
theorem pllPullsRegister : Obligations.PllPullsRegister := by
  refine ⟨fun r => decode_pll r [], fun r s hsp => ?pull, fun r s hsp => ?underflow⟩
  case pull =>
    have hheld : 1 ≤ s.sp.toNat := by bv_omega
    exact exec_pll_inside hheld r
  case underflow =>
    have hempty : ¬ 1 ≤ s.sp.toNat := by rw [hsp]; decide
    rw [exec_pll_empty hempty, hsp]

/-! ### RTN -/

theorem exec_rtn_inside {s : State} (h : 2 ≤ s.sp.toNat) (op : Byte) :
    exec (.rtn op) s = .next { s with
      pc := 256 * (s.stk.read (s.sp.toNat - 2)).toNat + (s.stk.read (s.sp.toNat - 1)).toNat
      sp := BitVec.ofNat 8 (s.sp.toNat - 2) } := by
  rw [← joinBytes_toNat, ofNat_toNat_sub h, exec, execRtn, pull16_inside h]
  rfl

theorem exec_rtn_empty {s : State} (h : ¬ 2 ≤ s.sp.toNat) (op : Byte) :
    exec (.rtn op) s = .fault (.stackUnderflow s.sp) := by
  rw [exec, execRtn, pull16_empty h, bind_error, finish_error]

/-- The pulled pc is a 16-bit address, whatever the stack holds. -/
theorem pc_le_of_exec_rtn {op : Byte} {s t : State} (h : exec (.rtn op) s = .next t) : t.pc ≤ 0xFFFF := by
  obtain ⟨⟨a, u⟩, -, hjump⟩ := bind_eq_ok.mp (finish_eq_next.mp h)
  have ht : jump a u = t := Except.ok.inj hjump
  rw [← ht, jump_pc]
  exact Nat.le_of_lt_succ a.isLt

/-- Settles O33: the 16-bit pull answers the two bytes below sp as one address, which becomes pc. -/
theorem rtnPullsPc : Obligations.RtnPullsPc :=
  ⟨decode_one rfl, decode_one rfl, by decide, fun op _ h => exec_rtn_inside h op,
    fun _ _ _ h => pc_le_of_exec_rtn h, fun op _ h => exec_rtn_empty (Nat.not_le.mpr h) op⟩

end Sys2Proof.Machine
end

section
/-! PROOFS. TRS d, s (43_transfer_unary.md R100): its byte, its effect, and what the two registers hold afterwards, also
when they are one. -/

namespace Sys2Proof.Machine

open Sys2Proof.Spec

theorem decode_trs (d r : Reg) (rest : List Byte) :
    decode (BitVec.ofNat 8 (0x60 + 4 * regNumber r + regNumber d) :: rest) = .ok (.trs d r, rest) := by
  have hlen : opLength (BitVec.ofNat 8 (0x60 + 4 * regNumber r + regNumber d)) = 1 := by
    cases d <;> cases r <;> rfl
  have hop : decodeOpcode (BitVec.ofNat 8 (0x60 + 4 * regNumber r + regNumber d)) 0 0 = .trs d r := by
    cases d <;> cases r <;> rfl
  rw [decode_one hlen, hop]

theorem exec_trs (d r : Reg) (s : State) : exec (.trs d r) s = .next (s.setReg d (s.reg r)) := rfl

/-- A copy leaves its source: the destination is another register, or it takes the value it has. -/
theorem reg_setReg_copy_source (d r : Reg) (s : State) : (s.setReg d (s.reg r)).reg r = s.reg r := by
  by_cases hrd : r = d
  · rw [hrd, reg_setReg_same]
  · exact reg_setReg_other s _ hrd

/-- Settles O36: TRS is one register write, so it cannot fault, and its source still holds the value it copies. -/
theorem trsCopiesRegister : Obligations.TrsCopiesRegister :=
  ⟨fun d r => decode_trs d r [], exec_trs,
    fun d r s => ⟨reg_setReg_copy_source d r s, reg_setReg_same s d (s.reg r)⟩⟩

end Sys2Proof.Machine
end

section
/-! PROOFS. SET f and CLR f (44_flags_branch.md R112, R113): the byte of each, the one flag it writes, and that among the
other instructions only ADD and SUB write V. For the last part, each shared operation is shown to keep V, and an ALU
template keeps it when its results say nothing about overflow. -/

namespace Sys2Proof.Machine

open Sys2Proof.Spec

/-! ### Encoding and execution -/

theorem decode_set (f : CondFlag) (rest : List Byte) :
    decode (BitVec.ofNat 8 (0xB8 + flagNumber f) :: rest) = .ok (.set f, rest) := by
  have hlen : opLength (BitVec.ofNat 8 (0xB8 + flagNumber f)) = 1 := by cases f <;> rfl
  have hop : decodeOpcode (BitVec.ofNat 8 (0xB8 + flagNumber f)) 0 0 = .set f := by cases f <;> rfl
  rw [decode_one hlen, hop]

theorem decode_clr (f : CondFlag) (rest : List Byte) :
    decode (BitVec.ofNat 8 (0xBC + flagNumber f) :: rest) = .ok (.clr f, rest) := by
  have hlen : opLength (BitVec.ofNat 8 (0xBC + flagNumber f)) = 1 := by cases f <;> rfl
  have hop : decodeOpcode (BitVec.ofNat 8 (0xBC + flagNumber f)) 0 0 = .clr f := by cases f <;> rfl
  rw [decode_one hlen, hop]

theorem exec_set (f : CondFlag) (s : State) : exec (.set f) s = .next (s.setFlag f true) := rfl

theorem exec_clr (f : CondFlag) (s : State) : exec (.clr f) s = .next (s.setFlag f false) := rfl

@[simp] theorem setFlag_self (s : State) (f : CondFlag) : s.setFlag f (s.flag f) = s := by cases f <;> rfl

/-! ### Shared operations keep V -/

section
variable {s t : State}

theorem vf_eq_of_passOperand {n : Nat} (h : passOperand n s = .ok t) : t.vf = s.vf := by
  obtain ⟨-, rfl⟩ := passOperand_eq_ok.mp h
  rfl

theorem vf_eq_of_memWrite {ea : Nat} {v : Byte} (h : memWrite ea v s = .ok t) : t.vf = s.vf := by
  obtain ⟨_, -, ht⟩ := bind_eq_ok.mp h
  cases ht
  rfl

theorem vf_eq_of_resolveMem {a : Addr} {i : Index} {ea : Nat} (h : resolveMem a i s = .ok (ea, t)) : t.vf = s.vf := by
  obtain ⟨-, -, -, rfl⟩ := resolveMem_eq_ok.mp h
  rfl

theorem vf_eq_of_resolve {m : Operand} {loc : Loc} (h : resolve m s = .ok (loc, t)) : t.vf = s.vf := by
  cases m with
  | reg r => cases h; rfl
  | mem a i =>
    obtain ⟨⟨ea, u⟩, hresolve, hu⟩ := bind_eq_ok.mp h
    cases hu
    exact vf_eq_of_resolveMem hresolve

theorem vf_eq_of_writeMR {loc : Loc} {v : Byte} (h : writeMR loc v s = .ok t) : t.vf = s.vf := by
  cases loc with
  | reg r => cases h; exact setReg_vf s r v
  | mem ea => exact vf_eq_of_memWrite h

/-! ### ALU templates whose results leave overflow alone -/

theorem vf_eq_of_setAluFlags {r : AluResult} (hr : r.overflow = none) (s : State) : (setAluFlags r s).vf = s.vf := by
  rw [setAluFlags_vf, hr, Option.getD_none]

theorem vf_eq_of_unary {g : Byte → AluResult} (hg : ∀ v, (g v).overflow = none) {m : Operand}
    (h : unary g m s = .next t) : t.vf = s.vf := by
  obtain ⟨⟨loc, u⟩, hresolve, h⟩ := bind_eq_ok.mp (finish_eq_next.mp h)
  obtain ⟨v, -, h⟩ := bind_eq_ok.mp h
  obtain ⟨w, hwrite, ht⟩ := bind_eq_ok.mp h
  cases ht
  calc (setAluFlags (g v) w).vf
      = w.vf := vf_eq_of_setAluFlags (hg v) w
    _ = u.vf := vf_eq_of_writeMR hwrite
    _ = s.vf := vf_eq_of_resolve hresolve

/-- The operand half of the binary template keeps V, and what it answers is a result of the operation. -/
theorem vf_eq_of_binaryResult {g : Byte → Byte → AluResult} {m : Operand} {r : AluResult}
    (h : binaryResult g m s = .ok (r, t)) : t.vf = s.vf ∧ ∃ a b, r = g a b := by
  obtain ⟨⟨loc, u⟩, hresolve, h⟩ := bind_eq_ok.mp h
  obtain ⟨b, -, ht⟩ := bind_eq_ok.mp h
  cases ht
  exact ⟨vf_eq_of_resolve hresolve, _, b, rfl⟩

theorem vf_eq_of_binary {g : Byte → Byte → AluResult} (hg : ∀ a b, (g a b).overflow = none) {m : Operand}
    (h : binary g m s = .next t) : t.vf = s.vf := by
  obtain ⟨⟨r, u⟩, hresult, ht⟩ := bind_eq_ok.mp (finish_eq_next.mp h)
  obtain ⟨hu, a, b, rfl⟩ := vf_eq_of_binaryResult hresult
  cases ht
  rw [vf_eq_of_setAluFlags (hg a b), setReg_vf, hu]

theorem vf_eq_of_flagsOnly {g : Byte → Byte → AluResult} (hg : ∀ a b, (g a b).overflow = none) {m : Operand}
    (h : flagsOnly g m s = .next t) : t.vf = s.vf := by
  obtain ⟨⟨r, u⟩, hresult, ht⟩ := bind_eq_ok.mp (finish_eq_next.mp h)
  obtain ⟨hu, a, b, rfl⟩ := vf_eq_of_binaryResult hresult
  cases ht
  rw [vf_eq_of_setAluFlags (hg a b), hu]

theorem vf_eq_of_branchIf {taken : Bool} {a : Addr} (h : branchIf taken a s = .next t) : t.vf = s.vf := by
  obtain ⟨u, hfetch, ht⟩ := bind_eq_ok.mp (finish_eq_next.mp h)
  cases ht
  have hu : u.vf = s.vf := vf_eq_of_passOperand hfetch
  cases taken <;> exact hu

/-! ### Which instructions write V -/

/-- An instruction that 10_state.md R26 does not list as writing V keeps it. -/
theorem vf_eq_of_exec {i : Instr} (hi : .v ∉ flagsWritten i) (h : exec i s = .next t) : t.vf = s.vf := by
  cases i with
  | nopLow | nopGap | nopHigh => cases h; rfl
  | str r a =>
    obtain ⟨u, hfetch, hstore⟩ := bind_eq_ok.mp (finish_eq_next.mp h)
    rw [vf_eq_of_memWrite hstore, vf_eq_of_passOperand hfetch]
  | strM a ix =>
    obtain ⟨⟨ea, u⟩, hresolve, hstore⟩ := bind_eq_ok.mp (finish_eq_next.mp h)
    rw [vf_eq_of_memWrite hstore, vf_eq_of_resolveMem hresolve]
  | lod r a =>
    obtain ⟨u, hfetch, h⟩ := bind_eq_ok.mp (finish_eq_next.mp h)
    obtain ⟨v, -, ht⟩ := bind_eq_ok.mp h
    cases ht
    rw [setZN_vf, setReg_vf, vf_eq_of_passOperand hfetch]
  | lodM a ix =>
    obtain ⟨⟨ea, u⟩, hresolve, h⟩ := bind_eq_ok.mp (finish_eq_next.mp h)
    obtain ⟨v, -, ht⟩ := bind_eq_ok.mp h
    cases ht
    rw [setReg_vf, vf_eq_of_resolveMem hresolve]
  | lodImm r n =>
    obtain ⟨u, hfetch, ht⟩ := bind_eq_ok.mp (finish_eq_next.mp h)
    cases ht
    rw [setReg_vf, vf_eq_of_passOperand hfetch]
  | psh r =>
    obtain ⟨-, rfl⟩ := push8_eq_ok.mp (finish_eq_next.mp h)
    rfl
  | pll r =>
    obtain ⟨⟨v, u⟩, hpull, ht⟩ := bind_eq_ok.mp (finish_eq_next.mp h)
    obtain ⟨-, hu⟩ := pull8_eq_ok.mp hpull
    cases hu; cases ht
    rw [setReg_vf]
  | jmp a =>
    obtain ⟨u, hfetch, ht⟩ := bind_eq_ok.mp (finish_eq_next.mp h)
    cases ht
    rw [jump_vf, vf_eq_of_passOperand hfetch]
  | cal a =>
    obtain ⟨u, hfetch, h⟩ := bind_eq_ok.mp (finish_eq_next.mp h)
    obtain ⟨w, hpush, ht⟩ := bind_eq_ok.mp h
    obtain ⟨-, rfl⟩ := push16_eq_ok.mp hpush
    cases ht
    have hu : u.vf = s.vf := vf_eq_of_passOperand hfetch
    exact hu
  | rtn op =>
    obtain ⟨⟨v, u⟩, hpull, ht⟩ := bind_eq_ok.mp (finish_eq_next.mp h)
    obtain ⟨-, hu⟩ := pull16_eq_ok.mp hpull
    cases hu; cases ht
    rfl
  | trs d r => cases h; exact setReg_vf s d _
  | inc m | dec m | shl m | shr m | rol m | ror m | not m => exact vf_eq_of_unary (fun _ => rfl) h
  | brc f a | brn f a => exact vf_eq_of_branchIf h
  | set f | clr f =>
    cases h
    exact flag_setFlag_other s _ fun hv => hi (List.mem_singleton.mpr hv)
  | add m | sub m => simp [flagsWritten] at hi
  | and m | ior m | xor m => exact vf_eq_of_binary (fun _ _ => rfl) h
  | cmp m => exact vf_eq_of_flagsOnly (fun _ _ => rfl) h

end

/-- The list of R112: ADD, SUB, SET VF and CLR VF. -/
theorem v_mem_flagsWritten {i : Instr} (h : .v ∈ flagsWritten i) :
    (∃ m, i = .add m) ∨ (∃ m, i = .sub m) ∨ i = .set .v ∨ i = .clr .v := by
  cases i with
  | add m => exact .inl ⟨m, rfl⟩
  | sub m => exact .inr (.inl ⟨m, rfl⟩)
  | set f => rw [← List.mem_singleton.mp h]; exact .inr (.inr (.inl rfl))
  | clr f => rw [← List.mem_singleton.mp h]; exact .inr (.inr (.inr rfl))
  | _ => simp [flagsWritten] at h

/-- Settles O42: SET and CLR are one flag write, so they cannot fault, and writing the value a flag has changes nothing;
an instruction that changes V is listed as writing it. -/
theorem setAndClrWriteFlag : Obligations.SetAndClrWriteFlag := by
  refine ⟨fun f => ⟨decode_set f [], decode_clr f []⟩,
    fun f s => ⟨_, exec_set f s, rfl, flag_setFlag_same s f true, fun g hg => flag_setFlag_other s true hg⟩,
    fun f s => ⟨_, exec_clr f s, rfl, flag_setFlag_same s f false, fun g hg => flag_setFlag_other s false hg,
      fun hclear => ?alreadyClear⟩,
    fun i s t h hv => v_mem_flagsWritten (Decidable.byContradiction fun hi => hv (vf_eq_of_exec hi h))⟩
  case alreadyClear => rw [← hclear, setFlag_self]

end Sys2Proof.Machine
end

section
/-! PROOFS. What an execution does, said once. `effect` is the state a completed execution leaves, written with the
operations of the spec's pseudocode and no fault in it; an execution raises the fault of R130's table or else ends in
that state (`exec_eq`). The statements about every instruction (faults, frames, dependence, the invariant) are then
statements about `expectedFault` and `effect`. -/

namespace Sys2Proof.Machine

open Sys2Proof.Spec

/-! ### The state a completed execution leaves -/

/-- A unary instruction that completes (43_transfer_unary.md R101). -/
def unaryEffect (f : Byte → AluResult) (m : Operand) (s : State) : State :=
  setAluFlags (f (operandValue m s)) (putOperand m (f (operandValue m s)).value s)

/-- A binary instruction other than CMP that completes (45_binary_alu.md R120). -/
def binaryEffect (g : Byte → Byte → AluResult) (m : Operand) (s : State) : State :=
  setAluFlags (g s.a (operandValue m s)) ((pastOperand m s).setReg .a (g s.a (operandValue m s)).value)

/-- CMP when it completes: the flags alone (45_binary_alu.md R126). -/
def compareEffect (g : Byte → Byte → AluResult) (m : Operand) (s : State) : State :=
  setAluFlags (g s.a (operandValue m s)) (pastOperand m s)

/-- A branch that completes (44_flags_branch.md R110). -/
def branchEffect (taken : Bool) (a : Addr) (s : State) : State :=
  if taken then jump a s else { s with pc := s.pc + 2 }

/-- The state an execution leaves when it raises no fault. -/
def effect (i : Instr) (s : State) : State :=
  match i with
  | .nopLow _ => s
  | .nopGap _ => s
  | .nopHigh _ => s
  | .str r a => putOperand (.mem a .none) (s.reg r) s
  | .strM a ix => putOperand (.mem a ix) s.a s
  | .lod r a => setZN (s.mem.read a.toNat) ((pastOperand (.mem a .none) s).setReg r (s.mem.read a.toNat))
  | .lodM a ix => (pastOperand (.mem a ix) s).setReg .a (operandValue (.mem a ix) s)
  | .lodImm r n => State.setReg { s with pc := s.pc + 1 } r n
  | .psh r => { s with stk := s.stk.write s.sp.toNat (s.reg r), sp := s.sp + 1 }
  | .pll r => State.setReg { s with sp := s.sp - 1 } r (s.stk.read (s.sp.toNat - 1))
  | .jmp a => jump a s
  | .cal a => jump a { s with
      stk := (s.stk.write s.sp.toNat (highByte (returnAddress s))).write (s.sp.toNat + 1) (lowByte (returnAddress s))
      sp := s.sp + 2 }
  | .rtn _ => jump (joinBytes (s.stk.read (s.sp.toNat - 2)) (s.stk.read (s.sp.toNat - 1))) { s with sp := s.sp - 2 }
  | .trs d r => s.setReg d (s.reg r)
  | .inc m => unaryEffect incResult m s
  | .dec m => unaryEffect decResult m s
  | .shl m => unaryEffect shlResult m s
  | .shr m => unaryEffect shrResult m s
  | .rol m => unaryEffect rolResult m s
  | .ror m => unaryEffect rorResult m s
  | .not m => unaryEffect notResult m s
  | .brc f a => branchEffect (s.flag f) a s
  | .brn f a => branchEffect (!s.flag f) a s
  | .set f => s.setFlag f true
  | .clr f => s.setFlag f false
  | .add m => binaryEffect addResult m s
  | .sub m => binaryEffect subResult m s
  | .and m => binaryEffect andResult m s
  | .ior m => binaryEffect iorResult m s
  | .xor m => binaryEffect xorResult m s
  | .cmp m => compareEffect cmpResult m s

/-- The outcome of an execution with a fault, if any, and a state it ends in otherwise. -/
def outcome (f : Option Fault) (t : State) : Host.Outcome State Fault Refusal :=
  match f with
  | some f => .fault f
  | none => .next t

@[simp] theorem outcome_some (f : Fault) (t : State) : outcome (some f) t = .fault f := rfl

@[simp] theorem outcome_none (t : State) : outcome none t = .next t := rfl

theorem outcome_eq_next {f : Option Fault} {t u : State} : outcome f t = .next u ↔ f = none ∧ u = t := by
  cases f <;> simp [eq_comm]

/-! ### The fault table, as bounds -/

section
variable {n : Nat} {a : Addr} {i : Index} {s : State}

theorem operandFault_inside (h : s.pc + n ≤ Config.memSize) : operandFault n s = none :=
  if_neg (Nat.not_lt.mpr h)

theorem operandFault_outside (h : ¬ s.pc + n ≤ Config.memSize) :
    operandFault n s = some (.outOfBounds (max s.pc Config.memSize)) :=
  if_pos (Nat.lt_of_not_le h)

theorem memFault_inside (h : s.pc + 2 ≤ Config.memSize) (he : effAddr a i s + 1 ≤ Config.memSize) :
    memFault a i s = none := by
  rw [memFault, operandFault_inside h, Option.none_or]
  exact if_neg (Nat.not_lt.mpr (Nat.le_of_succ_le_succ he))

theorem memFault_operand_outside (h : ¬ s.pc + 2 ≤ Config.memSize) :
    memFault a i s = some (.outOfBounds (max s.pc Config.memSize)) := by
  rw [memFault, operandFault_outside h, Option.some_or]

theorem memFault_index_outside (h : s.pc + 2 ≤ Config.memSize) (he : ¬ effAddr a i s + 1 ≤ Config.memSize) :
    memFault a i s = some (.outOfBounds (effAddr a i s)) := by
  rw [memFault, operandFault_inside h, Option.none_or]
  exact if_pos (Nat.lt_of_succ_lt_succ (Nat.lt_of_not_le he))

theorem operandFault_eq_none : operandFault n s = none ↔ s.pc + n ≤ Config.memSize := by
  by_cases h : s.pc + n ≤ Config.memSize
  · simp only [operandFault_inside h, h]
  · simp only [operandFault_outside h, h, reduceCtorEq]

theorem memFault_eq_none :
    memFault a i s = none ↔ s.pc + 2 ≤ Config.memSize ∧ effAddr a i s + 1 ≤ Config.memSize := by
  by_cases h : s.pc + 2 ≤ Config.memSize
  · by_cases he : effAddr a i s + 1 ≤ Config.memSize
    · simp only [memFault_inside h he, h, he, and_self]
    · simp only [memFault_index_outside h he, he, and_false, reduceCtorEq]
  · simp only [memFault_operand_outside h, h, false_and, reduceCtorEq]

/-- A readable operand is one without a fault (30_encoding.md R66). -/
theorem modeFault_of_readable {m : Operand} (h : OperandReadable m s) : modeFault m s = none := by
  cases m with
  | reg r => rfl
  | mem a i =>
    obtain ⟨hpc, hea⟩ := h
    exact memFault_inside hpc (Nat.succ_le_succ hea)

end

/-! ### Meanings and templates -/

section
variable {s t : State}

/-- A meaning that begins with an operand fetch. -/
theorem finish_passOperand {n : Nat} {k : State → Except Fault State} (hk : k { s with pc := s.pc + n } = .ok t) :
    finish (passOperand n s >>= k) = outcome (operandFault n s) t := by
  by_cases h : s.pc + n ≤ Config.memSize
  · rw [passOperand_inside h, bind_ok, hk, operandFault_inside h]; rfl
  · rw [passOperand_outside h, operandFault_outside h]; rfl

/-- A meaning that begins with the memory half of the address decoder. -/
theorem finish_resolveMem {a : Addr} {i : Index} {k : Nat × State → Except Fault State}
    (hk : effAddr a i s + 1 ≤ Config.memSize → k (effAddr a i s, { s with pc := s.pc + 2 }) = .ok t) :
    finish (resolveMem a i s >>= k) = outcome (memFault a i s) t := by
  by_cases h : s.pc + 2 ≤ Config.memSize
  · by_cases he : effAddr a i s + 1 ≤ Config.memSize
    · rw [resolveMem_inside h he, bind_ok, hk he, memFault_inside h he]; rfl
    · rw [resolveMem_index_outside h he, memFault_index_outside h he]; rfl
  · rw [resolveMem_operand_outside h, memFault_operand_outside h]; rfl

theorem unary_eq (f : Byte → AluResult) (m : Operand) (s : State) :
    unary f m s = outcome (modeFault m s) (unaryEffect f m s) := by
  cases m with
  | reg r => rfl
  | mem a i =>
    by_cases h : s.pc + 2 ≤ Config.memSize
    · by_cases he : effAddr a i s + 1 ≤ Config.memSize
      · rw [unary_mem_inside f h he, modeFault, memFault_inside h he]; rfl
      · rw [unary_mem_index_outside f h he, modeFault, memFault_index_outside h he]; rfl
    · rw [unary_mem_operand_outside f h, modeFault, memFault_operand_outside h]; rfl

/-- A meaning that begins with the operand half of the binary template. -/
theorem finish_binaryResult {g : Byte → Byte → AluResult} {m : Operand} {k : AluResult × State → Except Fault State}
    (hk : k (g s.a (operandValue m s), pastOperand m s) = .ok t) :
    finish (binaryResult g m s >>= k) = outcome (modeFault m s) t := by
  cases m with
  | reg r => exact congrArg finish hk
  | mem a i =>
    by_cases h : s.pc + 2 ≤ Config.memSize
    · by_cases he : effAddr a i s + 1 ≤ Config.memSize
      · rw [binaryResult_mem_inside g h he, modeFault, memFault_inside h he]; exact congrArg finish hk
      · rw [binaryResult_mem_index_outside g h he, modeFault, memFault_index_outside h he]; rfl
    · rw [binaryResult_mem_operand_outside g h, modeFault, memFault_operand_outside h]; rfl

theorem binary_eq (g : Byte → Byte → AluResult) (m : Operand) (s : State) :
    binary g m s = outcome (modeFault m s) (binaryEffect g m s) := finish_binaryResult rfl

theorem flagsOnly_eq (g : Byte → Byte → AluResult) (m : Operand) (s : State) :
    flagsOnly g m s = outcome (modeFault m s) (compareEffect g m s) := finish_binaryResult rfl

theorem branchIf_eq (taken : Bool) (a : Addr) (s : State) :
    branchIf taken a s = outcome (operandFault 2 s) (branchEffect taken a s) :=
  finish_passOperand (by cases taken <;> rfl)

theorem execPsh_eq (r : Reg) (s : State) :
    execPsh r s = outcome (expectedFault (.psh r) s) (effect (.psh r) s) := by
  by_cases h : s.sp.toNat + 1 ≤ Config.spMax
  · have hsp : s.sp ≠ 255 := by rintro hsp; simp [hsp] at h
    rw [execPsh, push8_inside h, expectedFault, if_neg hsp]; rfl
  · have hsp : s.sp = 255 := by simp only [Config.spMax] at h; bv_omega
    rw [execPsh, push8_full h, expectedFault, if_pos hsp]; rfl

theorem execPll_eq (r : Reg) (s : State) :
    execPll r s = outcome (expectedFault (.pll r) s) (effect (.pll r) s) := by
  by_cases h : 1 ≤ s.sp.toNat
  · have hsp : s.sp ≠ 0 := by rintro hsp; simp [hsp] at h
    rw [execPll, pull8_inside h, expectedFault, if_neg hsp]; rfl
  · have hsp : s.sp = 0 := by bv_omega
    rw [execPll, pull8_empty h, expectedFault, if_pos hsp]; rfl

/-- The operand fetch of CAL is checked before the stack (60_exceptions.md R134). -/
theorem execCal_eq (a : Addr) (s : State) :
    execCal a s = outcome (expectedFault (.cal a) s) (effect (.cal a) s) := by
  by_cases h : s.pc + 2 ≤ Config.memSize
  · rw [execCal, fetchAddr_inside h, bind_ok, expectedFault, operandFault_inside h, Option.none_or]
    by_cases hroom : s.sp.toNat + 2 ≤ Config.spMax
    · rw [push16_inside (s := { s with pc := s.pc + 2 }) hroom, if_neg (by simp only [Config.spMax] at hroom; omega)]; rfl
    · rw [push16_full (s := { s with pc := s.pc + 2 }) hroom, if_pos (by simp only [Config.spMax] at hroom; omega)]; rfl
  · rw [execCal, fetchAddr_outside h, expectedFault, operandFault_outside h, Option.some_or]; rfl

theorem execRtn_eq (op : Byte) (s : State) :
    execRtn s = outcome (expectedFault (.rtn op) s) (effect (.rtn op) s) := by
  by_cases h : 2 ≤ s.sp.toNat
  · rw [execRtn, pull16_inside h, expectedFault, if_neg (by omega)]; rfl
  · rw [execRtn, pull16_empty h, expectedFault, if_pos (by omega)]; rfl

end

/-! ### Every instruction -/

/-- An execution raises the fault the table gives for it (60_exceptions.md R130, R134), or completes with its effect. -/
theorem exec_eq (i : Instr) (s : State) : exec i s = outcome (expectedFault i s) (effect i s) := by
  cases i with
  | nopLow | nopGap | nopHigh | trs | set | clr => rfl
  | str r a => exact finish_passOperand (by rw [memWrite_inside (addr_inside a), reg_with_pc]; rfl)
  | strM a ix => exact finish_resolveMem fun he => memWrite_inside he _ _
  | lod r a => exact finish_passOperand (by rw [memRead_inside (addr_inside a)]; rfl)
  | lodM a ix => exact finish_resolveMem fun he => by simp only [memRead_inside he]; rfl
  | lodImm | jmp => exact finish_passOperand rfl
  | psh r => exact execPsh_eq r s
  | pll r => exact execPll_eq r s
  | cal a => exact execCal_eq a s
  | rtn op => exact execRtn_eq op s
  | inc m | dec m | shl m | shr m | rol m | ror m | not m => exact unary_eq _ m s
  | brc f a | brn f a => exact branchIf_eq _ a s
  | add m | sub m | and m | ior m | xor m => exact binary_eq _ m s
  | cmp m => exact flagsOnly_eq _ m s

theorem exec_of_no_fault {i : Instr} {s : State} (h : expectedFault i s = none) : exec i s = .next (effect i s) := by
  rw [exec_eq, h, outcome_none]

/-- All a completed execution can do. -/
theorem exec_eq_next {i : Instr} {s t : State} : exec i s = .next t ↔ expectedFault i s = none ∧ t = effect i s := by
  rw [exec_eq, outcome_eq_next]

/-- Settles O13: the fault table and `effect` together give every outcome of an execution. -/
theorem executionFaultsExactlyAsListed : Obligations.ExecutionFaultsExactlyAsListed := fun i s =>
  ⟨fun f hf => by rw [exec_eq, hf, outcome_some], fun h => ⟨_, exec_of_no_fault h⟩⟩

theorem exec_ne_refused (i : Instr) (s : State) (r : Refusal) : exec i s ≠ .refused r := by
  rw [exec_eq]
  cases expectedFault i s <;> simp

/-- Settles O10: an outcome of the fault table or of `effect` is no refusal, and neither is a fault of the fetch. -/
theorem stepNeverRefuses : Obligations.StepNeverRefuses := by
  intro s r
  cases hfetch : fetch s with
  | error f => rw [step_of_fetch_fault hfetch]; simp
  | ok i =>
    rw [step_of_fetch hfetch]
    cases hexec : exec i { s with pc := s.pc + 1 } with
    | next t => simp
    | fault f => simp
    | refused r' => exact absurd hexec (exec_ne_refused _ _ _)

/-- An execution depends on a part of the state as its fault and its effect do. -/
theorem exec_commutes {i : Instr} {s s' : State} {f : State → State} (hfault : expectedFault i s' = expectedFault i s)
    (heffect : effect i s' = f (effect i s)) : exec i s' = mapNext f (exec i s) := by
  rw [exec_eq, exec_eq, hfault, heffect]
  cases expectedFault i s <;> rfl

end Sys2Proof.Machine
end

section
/-! PROOFS. What an execution leaves unchanged (10_state.md R21, R26, R31; 20_memory.md R42, R46; 30_encoding.md R61), read
off its effect: one lemma per field of the state for the operand operations, then one per field for every
instruction. -/

namespace Sys2Proof.Machine

open Sys2Proof.Spec

/-! ### Operands, field by field -/

section
variable (m : Operand) (v : Byte) (s : State)

@[simp] theorem reg_jump (a : Addr) (r : Reg) : (jump a s).reg r = s.reg r := by cases r <;> rfl
@[simp] theorem flag_jump (a : Addr) (f : CondFlag) : (jump a s).flag f = s.flag f := by cases f <;> rfl

@[simp] theorem reg_pastOperand (r : Reg) : (pastOperand m s).reg r = s.reg r := by cases m <;> cases r <;> rfl
@[simp] theorem flag_pastOperand (f : CondFlag) : (pastOperand m s).flag f = s.flag f := by cases m <;> cases f <;> rfl
@[simp] theorem pastOperand_mem : (pastOperand m s).mem = s.mem := by cases m <;> rfl
@[simp] theorem pastOperand_status : (pastOperand m s).status = s.status := by cases m <;> rfl

theorem pastOperand_pc : (pastOperand m s).pc + 1 = s.pc + m.length := by cases m <;> rfl

@[simp] theorem flag_putOperand (f : CondFlag) : (putOperand m v s).flag f = s.flag f := by
  cases m with
  | reg r => exact flag_setReg s r v f
  | mem a i => cases f <;> rfl

theorem reg_putOperand_other {q : Reg} (h : q ∉ operandReg m) : (putOperand m v s).reg q = s.reg q := by
  cases m with
  | reg r => exact reg_setReg_other s v (List.ne_of_not_mem_cons h)
  | mem a i => cases q <;> rfl

@[simp] theorem putOperand_status : (putOperand m v s).status = s.status := by
  cases m with
  | reg r => exact setReg_status s r v
  | mem a i => rfl

theorem putOperand_pc : (putOperand m v s).pc + 1 = s.pc + m.length := by
  cases m with
  | reg r => exact congrArg (· + 1) (setReg_pc s r v)
  | mem a i => rfl

theorem putOperand_mem : (putOperand m v s).mem = (operandAddr m s).elim s.mem fun addr => s.mem.write addr v := by
  cases m with
  | reg r => exact setReg_mem s r v
  | mem a i => rfl

end

/-! ### The flags a result writes -/

/-- The flags an ALU result writes: Z and N always, C and V where it says so (10_state.md R26). -/
def AluResult.written (r : AluResult) : List CondFlag :=
  [.z, .n] ++ (r.carry.map fun _ => CondFlag.c).toList ++ (r.overflow.map fun _ => CondFlag.v).toList

theorem flag_setAluFlags_other {r : AluResult} (s : State) {f : CondFlag} (h : f ∉ r.written) :
    (setAluFlags r s).flag f = s.flag f := by
  obtain ⟨v, carry, overflow⟩ := r
  cases f with
  | z | n => simp [AluResult.written] at h
  | c => cases carry with
    | none => simp
    | some b => simp [AluResult.written] at h
  | v => cases overflow with
    | none => simp
    | some b => simp [AluResult.written] at h

/-! ### Every instruction -/

theorem reg_branchEffect (taken : Bool) (a : Addr) (s : State) (r : Reg) :
    (branchEffect taken a s).reg r = s.reg r := by
  cases taken with
  | false => exact reg_with_pc s _ r
  | true => exact reg_jump s a r

theorem flag_branchEffect (taken : Bool) (a : Addr) (s : State) (f : CondFlag) :
    (branchEffect taken a s).flag f = s.flag f := by
  cases taken with
  | false => exact flag_with_pc s _ f
  | true => exact flag_jump s a f

theorem reg_effect {i : Instr} {r : Reg} (h : r ∉ regsWritten i) (s : State) : (effect i s).reg r = s.reg r := by
  cases i with
  | nopLow | nopGap | nopHigh => rfl
  | str q a | strM a ix => exact reg_putOperand_other _ _ _ List.not_mem_nil
  | lod q a => rw [effect, reg_setZN, reg_setReg_other _ _ (List.ne_of_not_mem_cons h), reg_pastOperand]
  | lodM a ix => rw [effect, reg_setReg_other _ _ (List.ne_of_not_mem_cons h), reg_pastOperand]
  | lodImm q n => rw [effect, reg_setReg_other _ _ (List.ne_of_not_mem_cons h), reg_with_pc]
  | psh q => cases r <;> rfl
  | pll q => rw [effect, reg_setReg_other _ _ (List.ne_of_not_mem_cons h), reg_with_sp]
  | jmp a => exact reg_jump s a r
  | cal a | rtn op => rw [effect, reg_jump]; cases r <;> rfl
  | trs d q => exact reg_setReg_other s _ (List.ne_of_not_mem_cons h)
  | inc m | dec m | shl m | shr m | rol m | ror m | not m =>
    exact (reg_setAluFlags _ _ r).trans (reg_putOperand_other m _ s h)
  | brc f a | brn f a => exact reg_branchEffect _ a s r
  | set f | clr f => exact reg_setFlag s f _ r
  | add m | sub m | and m | ior m | xor m =>
    rw [effect, binaryEffect, reg_setAluFlags, reg_setReg_other _ _ (List.ne_of_not_mem_cons h), reg_pastOperand]
  | cmp m => rw [effect, compareEffect, reg_setAluFlags, reg_pastOperand]

theorem flag_unaryEffect {g : Byte → AluResult} {m : Operand} {s : State} {f : CondFlag}
    (h : f ∉ (g (operandValue m s)).written) : (unaryEffect g m s).flag f = s.flag f := by
  rw [unaryEffect, flag_setAluFlags_other _ h, flag_putOperand]

theorem flag_binaryEffect {g : Byte → Byte → AluResult} {m : Operand} {s : State} {f : CondFlag}
    (h : f ∉ (g s.a (operandValue m s)).written) : (binaryEffect g m s).flag f = s.flag f := by
  rw [binaryEffect, flag_setAluFlags_other _ h, flag_setReg, flag_pastOperand]

theorem flag_effect {i : Instr} {f : CondFlag} (h : f ∉ flagsWritten i) (s : State) :
    (effect i s).flag f = s.flag f := by
  cases i with
  | nopLow | nopGap | nopHigh => rfl
  | str q a | strM a ix => exact flag_putOperand _ _ s f
  | lod q a =>
    have hf : (setZN (s.mem.read a.toNat) (State.setReg (pastOperand (.mem a .none) s) q (s.mem.read a.toNat))).flag f
        = (State.setReg (pastOperand (.mem a .none) s) q (s.mem.read a.toNat)).flag f := by
      cases f with
      | z | n => simp [flagsWritten] at h
      | c | v => rfl
    rw [effect, hf, flag_setReg, flag_pastOperand]
  | lodM a ix => rw [effect, flag_setReg, flag_pastOperand]
  | lodImm q n => rw [effect, flag_setReg, flag_with_pc]
  | psh q => cases f <;> rfl
  | pll q => rw [effect, flag_setReg, flag_with_sp]
  | jmp a => exact flag_jump s a f
  | cal a | rtn op => rw [effect, flag_jump]; cases f <;> rfl
  | trs d q => exact flag_setReg s d _ f
  | inc m | dec m | shl m | shr m | rol m | ror m | not m => exact flag_unaryEffect h
  | brc g a | brn g a => exact flag_branchEffect _ a s f
  | set g | clr g => exact flag_setFlag_other s _ (List.ne_of_not_mem_cons h)
  | add m | sub m | and m | ior m | xor m => exact flag_binaryEffect h
  | cmp m => rw [effect, compareEffect, flag_setAluFlags_other _ h, flag_pastOperand]

/-- Memory keeps every byte but the one at the store address, if there is one. -/
theorem mem_effect (i : Instr) (s : State) :
    ∃ v, (effect i s).mem = (storeAddr i s).elim s.mem fun addr => s.mem.write addr v := by
  cases i with
  | nopLow | nopGap | nopHigh | psh | jmp | cal | rtn => exact ⟨0, rfl⟩
  | str r a => exact ⟨_, putOperand_mem (.mem a .none) _ s⟩
  | strM a ix => exact ⟨_, putOperand_mem (.mem a ix) _ s⟩
  | lod r a | lodM a ix | lodImm r a | pll r => exact ⟨0, setReg_mem _ _ _⟩
  | trs d r => exact ⟨0, setReg_mem s d _⟩
  | inc m | dec m | shl m | shr m | rol m | ror m | not m =>
    exact ⟨_, (setAluFlags_mem _ _).trans (putOperand_mem m _ s)⟩
  | brc f a | brn f a => exact ⟨0, by rw [effect, branchEffect]; split <;> rfl⟩
  | set f | clr f => exact ⟨0, setFlag_mem s f _⟩
  | add m | sub m | and m | ior m | xor m =>
    exact ⟨0, by rw [effect, binaryEffect, setAluFlags_mem, setReg_mem, pastOperand_mem]; rfl⟩
  | cmp m => exact ⟨0, by rw [effect, compareEffect, setAluFlags_mem, pastOperand_mem]; rfl⟩

theorem status_effect (i : Instr) (s : State) : (effect i s).status = s.status := by
  cases i with
  | nopLow | nopGap | nopHigh | psh | jmp | cal | rtn => rfl
  | str r a | strM a ix => exact putOperand_status _ _ s
  | lod r a | lodM a ix | lodImm r a | pll r => exact setReg_status _ _ _
  | trs d r => exact setReg_status s d _
  | inc m | dec m | shl m | shr m | rol m | ror m | not m =>
    exact (setAluFlags_status _ _).trans (putOperand_status m _ s)
  | brc f a | brn f a => rw [effect, branchEffect]; split <;> rfl
  | set f | clr f => exact setFlag_status s f _
  | add m | sub m | and m | ior m | xor m =>
    rw [effect, binaryEffect, setAluFlags_status, setReg_status, pastOperand_status]
  | cmp m => rw [effect, compareEffect, setAluFlags_status, pastOperand_status]

/-- pc is at p0 + 1 when an execution begins, which the length counts. -/
theorem pc_effect {i : Instr} (hi : transfersControl i = false) (s : State) :
    (effect i s).pc + 1 = s.pc + i.length := by
  cases i with
  | jmp | cal | rtn | brc | brn => cases hi
  | nopLow | nopGap | nopHigh | psh => rfl
  | str r a => exact putOperand_pc (.mem a .none) _ s
  | strM a ix => exact putOperand_pc (.mem a ix) _ s
  | lod r a | lodM a ix | lodImm r a | pll r => exact congrArg (· + 1) (setReg_pc _ _ _)
  | trs d r => exact congrArg (· + 1) (setReg_pc s d _)
  | inc m | dec m | shl m | shr m | rol m | ror m | not m =>
    rw [effect, unaryEffect, setAluFlags_pc, putOperand_pc]; rfl
  | set f | clr f => exact congrArg (· + 1) (setFlag_pc s f _)
  | add m | sub m | and m | ior m | xor m =>
    rw [effect, binaryEffect, setAluFlags_pc, setReg_pc, pastOperand_pc]; rfl
  | cmp m => rw [effect, compareEffect, setAluFlags_pc, pastOperand_pc]; rfl

/-! ### The frames -/

/-- Settles O15: a completed execution is its effect, which writes the listed registers alone. -/
theorem onlyListedRegistersChange : Obligations.OnlyListedRegistersChange := by
  intro i s t r h hr
  obtain ⟨-, rfl⟩ := exec_eq_next.mp h
  exact reg_effect hr s

/-- Settles O17: a completed execution is its effect, which writes the listed flags alone. -/
theorem onlyListedFlagsChange : Obligations.OnlyListedFlagsChange := by
  intro i s t f h hf
  obtain ⟨-, rfl⟩ := exec_eq_next.mp h
  exact flag_effect hf s

/-- Settles O22: the two fields pc and status of the effect. -/
theorem pcAdvancesByLength : Obligations.PcAdvancesByLength := by
  intro i s t h
  obtain ⟨-, rfl⟩ := exec_eq_next.mp h
  exact ⟨fun hi => pc_effect hi s, status_effect i s⟩

/-- Settles O19: the effect's Memory is one write at the store address, or the Memory before. -/
theorem onlyStoredByteChanges : Obligations.OnlyStoredByteChanges := by
  rintro i s t ⟨-, hmem, -⟩ h
  obtain ⟨-, rfl⟩ := exec_eq_next.mp h
  refine ⟨fun addr haddr => ?others, fun r a hi => ?str, fun a ix hi => ?strM⟩
  case others =>
    obtain ⟨v, hv⟩ := mem_effect i s
    rw [hv]
    cases hstore : storeAddr i s with
    | none => rfl
    | some b => exact Memory.read_write_other hmem v fun hb => haddr (hstore.trans (congrArg some hb.symm))
  case str => subst hi; exact Memory.read_write_same hmem _ _
  case strM => subst hi; exact Memory.read_write_same hmem _ _

theorem stk_read_of_exec {i : Instr} {s t : State} (hs : s.stk.wf Config.stackSize = true)
    (h : exec i s = .next t) {k : Nat} (hk : k ∉ stackStores i s) : t.stk.read k = s.stk.read k := by
  by_cases hi : usesStack i = false
  · rw [(stack_eq_of_exec hi h).1]
  obtain ⟨-, rfl⟩ := exec_eq_next.mp h
  cases i with
  | psh r => exact Memory.read_write_other hs _ (List.ne_of_not_mem_cons hk)
  | pll r => rw [effect, setReg_stk]
  | cal a =>
    have hwf := Memory.write_wf hs (highByte (returnAddress s)) s.sp.isLt
    have hk1 : k ≠ s.sp.toNat + 1 := List.ne_of_not_mem_cons (List.not_mem_of_not_mem_cons hk)
    exact (Memory.read_write_other hwf _ hk1).trans (Memory.read_write_other hs _ (List.ne_of_not_mem_cons hk))
  | rtn op => rfl
  | _ => exact absurd rfl hi

/-- Settles O20: PSH and CAL write the stack buffer at the listed places, PLL and RTN only move sp, and every other
instruction leaves both. -/
theorem onlyPushedStackBytesChange : Obligations.OnlyPushedStackBytesChange :=
  fun _ _ _ ⟨_, _, hstk⟩ h _ hk => stk_read_of_exec hstk h hk

end Sys2Proof.Machine
end

section
/-! PROOFS. The invariant (10_state.md R22, R28, R29): an execution keeps it because its fault checks bound every address
it writes and every pc it leaves; a step then keeps it because a fetch that succeeds leaves pc at or below the top. The
status output takes no part in a step (10_state.md R31). -/

namespace Sys2Proof.Machine

open Sys2Proof.Spec

/-! ### What a completed execution has checked -/

theorem operandAddr_lt {m : Operand} {s : State} {addr : Nat} (hf : modeFault m s = none)
    (h : operandAddr m s = some addr) : addr < Config.memSize := by
  cases m with
  | reg r => cases h
  | mem a i =>
    obtain ⟨-, hea⟩ := memFault_eq_none.mp hf
    cases h
    exact hea

/-- An execution that completes stores inside Memory. -/
theorem storeAddr_lt {i : Instr} {s : State} {addr : Nat} (hf : expectedFault i s = none)
    (h : storeAddr i s = some addr) : addr < Config.memSize := by
  cases i with
  | str r a => cases h; exact a.isLt
  | strM a ix => exact operandAddr_lt (m := .mem a ix) hf h
  | inc m | dec m | shl m | shr m | rol m | ror m | not m => exact operandAddr_lt hf h
  | _ => cases h

/-- A mode operand that has no fault ends at or below the top of Memory. -/
theorem operand_end_le {m : Operand} {s : State} (hpc : s.pc ≤ Config.memSize) (hf : modeFault m s = none) :
    s.pc + m.length ≤ Config.memSize + 1 := by
  cases m with
  | reg r => exact Nat.succ_le_succ hpc
  | mem a i =>
    obtain ⟨h, -⟩ := memFault_eq_none.mp hf
    exact Nat.succ_le_succ h

/-- An instruction whose execution completes ends at or below the top of Memory; pc is at p0 + 1 when it begins. -/
theorem instr_end_le {i : Instr} {s : State} (hpc : s.pc ≤ Config.memSize) (hi : transfersControl i = false)
    (hf : expectedFault i s = none) : s.pc + i.length ≤ Config.memSize + 1 := by
  cases i with
  | jmp | cal | rtn | brc | brn => cases hi
  | nopLow | nopGap | nopHigh | psh | pll | trs | set | clr => exact Nat.succ_le_succ hpc
  | str r a | lod r a => exact Nat.succ_le_succ (operandFault_eq_none.mp hf)
  | lodImm r n => exact Nat.succ_le_succ (operandFault_eq_none.mp hf)
  | strM a ix | lodM a ix => exact operand_end_le (m := .mem a ix) hpc hf
  | inc m | dec m | shl m | shr m | rol m | ror m | not m => exact operand_end_le hpc hf
  | add m | sub m | and m | ior m | xor m | cmp m => exact operand_end_le hpc hf

/-! ### An execution keeps the invariant -/

theorem addr_le_top (a : Addr) : a.toNat ≤ Config.memSize := Nat.le_of_lt a.isLt

theorem branchEffect_pc_le {taken : Bool} {a : Addr} {s : State} (hf : operandFault 2 s = none) :
    (branchEffect taken a s).pc ≤ Config.memSize := by
  cases taken with
  | false => exact operandFault_eq_none.mp hf
  | true => exact addr_le_top a

theorem pc_effect_le {i : Instr} {s : State} (hpc : s.pc ≤ Config.memSize) (hf : expectedFault i s = none) :
    (effect i s).pc ≤ Config.memSize := by
  by_cases hi : transfersControl i = false
  · have hend := instr_end_le hpc hi hf
    rw [← pc_effect hi] at hend
    exact Nat.le_of_succ_le_succ hend
  cases i with
  | jmp a | cal a => exact addr_le_top a
  | rtn op => exact addr_le_top _
  | brc f a | brn f a => exact branchEffect_pc_le hf
  | _ => exact absurd rfl hi

theorem mem_effect_wf {i : Instr} {s : State} (hs : s.mem.wf Config.memSize = true) (hf : expectedFault i s = none) :
    (effect i s).mem.wf Config.memSize = true := by
  obtain ⟨v, hv⟩ := mem_effect i s
  rw [hv]
  cases hstore : storeAddr i s with
  | none => exact hs
  | some addr => exact Memory.write_wf hs v (storeAddr_lt hf hstore)

theorem stk_effect_wf {i : Instr} {s : State} (hs : s.stk.wf Config.stackSize = true)
    (hf : expectedFault i s = none) : (effect i s).stk.wf Config.stackSize = true := by
  by_cases hi : usesStack i = false
  · rwa [(stack_eq_of_exec hi (exec_of_no_fault hf)).1]
  cases i with
  | psh r => exact Memory.write_wf hs _ s.sp.isLt
  | pll r => rwa [effect, setReg_stk]
  | cal a =>
    obtain ⟨-, hroom⟩ := Option.or_eq_none_iff.mp hf
    have hsp : ¬ 254 ≤ s.sp.toNat := fun h => by simp [h] at hroom
    exact Memory.write_wf (Memory.write_wf hs _ s.sp.isLt) _ (by simp only [Config.stackSize]; omega)
  | rtn op => exact hs
  | _ => exact absurd rfl hi

theorem inv_effect {i : Instr} {s : State} (hs : s.Inv) (hf : expectedFault i s = none) : (effect i s).Inv := by
  obtain ⟨hpc, hmem, hstk⟩ := hs
  exact ⟨pc_effect_le hpc hf, mem_effect_wf hmem hf, stk_effect_wf hstk hf⟩

/-! ### A step keeps the invariant -/

theorem pc_lt_of_fetch {s : State} {i : Instr} (h : fetch s = .ok i) : s.pc < Config.memSize := by
  by_contra htop
  have hwindow : fetchWindow s = [] := Memory.window_top (Nat.le_of_not_lt htop)
  rw [fetch_of_reject (e := .noOpcode) (by rw [hwindow, decode])] at h
  cases h

/-- All a step that completes can do: fetch an instruction, run it from p0 + 1 without a fault, and report OK. -/
theorem step_eq_next {s t : State} : step s = .next t ↔
    ∃ i, fetch s = .ok i ∧ expectedFault i { s with pc := s.pc + 1 } = none ∧
      t = (effect i { s with pc := s.pc + 1 }).reportOk := by
  cases hfetch : fetch s with
  | error f => simp [step_of_fetch_fault hfetch]
  | ok i => simp [step_of_fetch hfetch, complete_eq_next, exec_eq_next, and_assoc]

/-- Settles O11: the fetch bounds p0, and the execution keeps the invariant from p0 + 1. -/
theorem stepKeepsInvariant : Obligations.StepKeepsInvariant := by
  rintro s t ⟨-, hmem, hstk⟩ h
  obtain ⟨i, hfetch, hf, rfl⟩ := step_eq_next.mp h
  exact inv_effect (s := { s with pc := s.pc + 1 }) ⟨pc_lt_of_fetch hfetch, hmem, hstk⟩ hf

/-- Settles O12: pc is 0 and both arrays list nothing. -/
theorem resetMeetsInvariant : Obligations.ResetMeetsInvariant :=
  ⟨Nat.zero_le _, Memory.nil_wf _, Memory.nil_wf _⟩

theorem inv_hostCycle {s : State} (hs : s.Inv) : (hostCycle s).2.Inv := by
  rw [hostCycle]
  cases hstep : step s with
  | next t => exact stepKeepsInvariant s t hs hstep
  | fault f => exact hs
  | refused r => exact hs

theorem inv_hostReachedEnd {s : State} (hs : s.Inv) : (hostReachedEnd s).2.Inv := by
  obtain ⟨hpc, hmem, hstk⟩ := hs
  rw [hostReachedEnd]
  split
  · exact ⟨Nat.zero_le _, hmem, hstk⟩
  · exact ⟨hpc, hmem, hstk⟩

theorem inv_hostLoad {s : State} (hs : s.Inv) (addr : Addr) (v : Byte) : (hostLoad addr v s).Inv := by
  obtain ⟨hpc, hmem, hstk⟩ := hs
  exact ⟨hpc, Memory.write_wf hmem v addr.isLt, hstk⟩

/-- Settles O56: CYCLE is a step or changes the status output alone; the other operations touch pc with 0 and Memory with
a write at a 16-bit address. -/
theorem hostOperationsKeepInvariant : Obligations.HostOperationsKeepInvariant := by
  intro op s hs
  cases op with
  | cycle => exact inv_hostCycle hs
  | reachedEnd => exact inv_hostReachedEnd hs
  | inspect | peekMem | peekStk => exact hs
  | load addr v => exact inv_hostLoad hs addr v
  | reset =>
    obtain ⟨-, hmem, hstk⟩ := hs
    exact ⟨Nat.zero_le _, hmem, hstk⟩

end Sys2Proof.Machine
end

section
/-! PROOFS. The decoder and the encoder (30_encoding.md R62 to R71, R75). One direction goes instruction by instruction: the
opcode the encoder writes fixes the length, and its fields give the instruction back. For the other, what an opcode
decodes to differs only in its operands, so that mnemonic, length and opcode byte are checked on the 256 opcodes. -/

namespace Sys2Proof

open Machine Spec

/-! ### From an instruction to its bytes and back -/

section
variable {i : Instr} {op : Byte} (rest : List Byte)

theorem decode_opcode_alone (hlen : opLength op = 1) (hop : decodeOpcode op 0 0 = i) :
    decode ([op] ++ rest) = .ok (i, rest) := by
  rw [List.singleton_append, decode_one hlen, hop]

theorem decode_with_addr {a : Addr} (hlen : opLength op = 3) (hop : decodeOpcode op 0 a = i) :
    decode (op :: addrBytes a ++ rest) = .ok (i, rest) := by
  rw [addrBytes, List.cons_append, List.cons_append, List.cons_append, List.nil_append, decode_three hlen,
    joinBytes_high_low, hop]

/-- The mode-operand rows: a base opcode whose eight opcodes all decode to `mk`, by operand form. -/
theorem decode_modeBytes {base : Byte} {mk : Operand → Instr} (m : Operand)
    (hreg : ∀ r : Reg, opLength (withField base r.bits) = 1 ∧ decodeOpcode (withField base r.bits) 0 0 = mk (.reg r))
    (hmem : ∀ ix : Index, opLength (withField (base + 4) ix.bits) = 3 ∧
      ∀ a, decodeOpcode (withField (base + 4) ix.bits) 0 a = mk (.mem a ix)) :
    decode (modeBytes base m ++ rest) = .ok (mk m, rest) := by
  cases m with
  | reg r => exact decode_opcode_alone rest (hreg r).1 (hreg r).2
  | mem a ix => exact decode_with_addr rest (hmem ix).1 ((hmem ix).2 a)

end

theorem decodeOpcode_nopLow : ∀ {op : Byte}, op.toNat < 0x40 → decodeOpcode op 0 0 = .nopLow op := by decide

theorem decodeOpcode_nopGap : ∀ {op : Byte}, 0xA8 ≤ op.toNat ∧ op.toNat < 0xB0 → decodeOpcode op 0 0 = .nopGap op := by
  decide

theorem decodeOpcode_nopHigh : ∀ {op : Byte}, 0xF0 ≤ op.toNat → decodeOpcode op 0 0 = .nopHigh op := by decide

theorem decodeOpcode_rtn : ∀ {op : Byte}, op = 0x5E ∨ op = 0x5F →
    opLength op = 1 ∧ decodeOpcode op 0 0 = .rtn op := by
  rintro op (rfl | rfl) <;> exact ⟨rfl, rfl⟩

open Laws.EncodeLength (reserved_length)

/-- Settles O1, row by row of the opcode table. -/
theorem encodedInstructionDecodesBack : Obligations.EncodedInstructionDecodesBack := by
  intro i rest hwf
  cases i with
  | nopLow op =>
    have hop : op.toNat < 0x40 := of_decide_eq_true hwf
    exact decode_opcode_alone rest (reserved_length (.inl hop)) (decodeOpcode_nopLow hop)
  | nopGap op =>
    have hop : 0xA8 ≤ op.toNat ∧ op.toNat < 0xB0 := by simpa [Instr.wellFormed] using hwf
    exact decode_opcode_alone rest (reserved_length (.inr (.inl hop))) (decodeOpcode_nopGap hop)
  | nopHigh op =>
    have hop : 0xF0 ≤ op.toNat := of_decide_eq_true hwf
    exact decode_opcode_alone rest (reserved_length (.inr (.inr hop))) (decodeOpcode_nopHigh hop)
  | rtn op =>
    have hop : op = 0x5E ∨ op = 0x5F := by simpa [Instr.wellFormed] using hwf
    exact decode_opcode_alone rest (decodeOpcode_rtn hop).1 (decodeOpcode_rtn hop).2
  | str r a | lod r a => exact decode_with_addr rest (by cases r <;> rfl) (by cases r <;> rfl)
  | strM a ix | lodM a ix => exact decode_with_addr rest (by cases ix <;> rfl) (by cases ix <;> rfl)
  | brc f a | brn f a => exact decode_with_addr rest (by cases f <;> rfl) (by cases f <;> rfl)
  | jmp a | cal a => exact decode_with_addr rest rfl rfl
  | lodImm r n =>
    have hlen : opLength (withField 0x50 r.bits) = 2 := by cases r <;> rfl
    have hop : decodeOpcode (withField 0x50 r.bits) n 0 = .lodImm r n := by cases r <;> rfl
    exact (decode_two hlen).trans (by rw [hop]; rfl)
  | psh r | pll r => exact decode_opcode_alone rest (by cases r <;> rfl) (by cases r <;> rfl)
  | set f | clr f => exact decode_opcode_alone rest (by cases f <;> rfl) (by cases f <;> rfl)
  | trs d s => exact decode_opcode_alone rest (by cases d <;> cases s <;> rfl) (by cases d <;> cases s <;> rfl)
  | inc m | dec m | shl m | shr m | rol m | ror m | not m | add m | sub m | and m | ior m | xor m | cmp m =>
    exact decode_modeBytes rest m (fun r => ⟨by cases r <;> rfl, by cases r <;> rfl⟩)
      fun ix => ⟨by cases ix <;> rfl, fun a => by cases ix <;> rfl⟩

/-! ### From an opcode to its instruction and back -/

/-- The operand bytes of an instruction of a given length (R62). -/
def operandBytes (len : Nat) (imm : Byte) (a : Addr) : List Byte :=
  match len with
  | 2 => [imm]
  | 3 => addrBytes a
  | _ => []

/-- The operand with another address. -/
def Operand.withAddr (a : Addr) : Operand → Operand
  | .reg r => .reg r
  | .mem _ i => .mem a i

/-- The instruction with another immediate and another address, where it has one. -/
def Instr.withOperands (imm : Byte) (a : Addr) : Instr → Instr
  | .str r _ => .str r a
  | .strM _ ix => .strM a ix
  | .lod r _ => .lod r a
  | .lodM _ ix => .lodM a ix
  | .lodImm r _ => .lodImm r imm
  | .jmp _ => .jmp a
  | .cal _ => .cal a
  | .inc m => .inc (m.withAddr a)
  | .dec m => .dec (m.withAddr a)
  | .shl m => .shl (m.withAddr a)
  | .shr m => .shr (m.withAddr a)
  | .rol m => .rol (m.withAddr a)
  | .ror m => .ror (m.withAddr a)
  | .not m => .not (m.withAddr a)
  | .brc f _ => .brc f a
  | .brn f _ => .brn f a
  | .add m => .add (m.withAddr a)
  | .sub m => .sub (m.withAddr a)
  | .and m => .and (m.withAddr a)
  | .ior m => .ior (m.withAddr a)
  | .xor m => .xor (m.withAddr a)
  | .cmp m => .cmp (m.withAddr a)
  | i => i

section
variable (op imm : Byte) (a : Addr)

theorem modeOperand_withAddr : modeOperand op a = (modeOperand op 0).withAddr a := by
  unfold modeOperand
  cases modeBit op <;> rfl

/-- The opcode fixes everything but the operands. -/
theorem decodeOpcode_withOperands : decodeOpcode op imm a = (decodeOpcode op 0 0).withOperands imm a := by
  simp only [decodeOpcode, apply_ite (Instr.withOperands imm a), modeOperand_withAddr op a]
  rfl

section
variable (i : Instr)

theorem mnemonic_withOperands : (i.withOperands imm a).mnemonic = i.mnemonic := by cases i <;> rfl

theorem wellFormed_withOperands : (i.withOperands imm a).wellFormed = i.wellFormed := by cases i <;> rfl

theorem length_withAddr (m : Operand) : (m.withAddr a).length = m.length := by cases m <;> rfl

theorem length_withOperands : (i.withOperands imm a).length = i.length := by
  cases i with
  | inc m | dec m | shl m | shr m | rol m | ror m | not m | add m | sub m | and m | ior m | xor m | cmp m =>
    exact length_withAddr a m
  | _ => rfl

/-- The encoder keeps the opcode and writes the operands as they are. -/
theorem encode_withOperands (h : (encode i).head? = some op) :
    encode (i.withOperands imm a) = op :: operandBytes i.length imm a := by
  cases i with
  | inc m | dec m | shl m | shr m | rol m | ror m | not m | add m | sub m | and m | ior m | xor m | cmp m =>
    cases m <;> exact congrArg (· :: _) (Option.some.inj h)
  | _ => exact congrArg (· :: _) (Option.some.inj h)

end

/-- The checks of the 256 opcodes. -/
theorem decodeOpcode_checks : ∀ op : Byte, (decodeOpcode op 0 0).length = opLength op ∧
    (decodeOpcode op 0 0).wellFormed = true ∧ (encode (decodeOpcode op 0 0)).head? = some op := by decide

theorem mnemonic_decodeOpcode : (decodeOpcode op imm a).mnemonic = (decodeOpcode op 0 0).mnemonic := by
  rw [decodeOpcode_withOperands, mnemonic_withOperands]

theorem length_decodeOpcode : (decodeOpcode op imm a).length = opLength op := by
  obtain ⟨hlen, -, -⟩ := decodeOpcode_checks op
  rw [decodeOpcode_withOperands, length_withOperands, hlen]

theorem wellFormed_decodeOpcode : (decodeOpcode op imm a).wellFormed = true := by
  obtain ⟨-, hwf, -⟩ := decodeOpcode_checks op
  rw [decodeOpcode_withOperands, wellFormed_withOperands, hwf]

theorem encode_decodeOpcode : encode (decodeOpcode op imm a) = op :: operandBytes (opLength op) imm a := by
  obtain ⟨hlen, -, hhead⟩ := decodeOpcode_checks op
  rw [decodeOpcode_withOperands, encode_withOperands op imm a _ hhead, hlen]

end

/-- All the decoder can answer: an opcode, its operand bytes, and what stands after them. -/
theorem decode_eq_ok {bytes rest : List Byte} {i : Instr} (h : decode bytes = .ok (i, rest)) :
    ∃ op imm a, bytes = op :: operandBytes (opLength op) imm a ++ rest ∧ i = decodeOpcode op imm a := by
  cases bytes with
  | nil => cases h
  | cons op tail =>
    rcases opLength_cases op with hlen | hlen | hlen
    · rw [decode_one hlen] at h
      cases h
      exact ⟨op, 0, 0, by rw [hlen]; rfl, rfl⟩
    · cases tail with
      | nil => simp only [decode, hlen, reduceCtorEq] at h
      | cons imm tail =>
        rw [decode_two hlen] at h
        cases h
        exact ⟨op, imm, 0, by rw [hlen]; rfl, rfl⟩
    · match tail, h with
      | [], h | [_], h => simp only [decode, hlen, reduceCtorEq] at h
      | hi :: lo :: tail, h =>
        rw [decode_three hlen] at h
        cases h
        refine ⟨op, 0, joinBytes hi lo, ?_, rfl⟩
        rw [hlen, operandBytes, addrBytes, highByte_joinBytes, lowByte_joinBytes]; rfl

/-- Settles O2: the encoder writes the opcode and the operands the decoder read. -/
theorem decodedInstructionEncodesBack : Obligations.DecodedInstructionEncodesBack := by
  intro bytes rest i h
  obtain ⟨op, imm, a, rfl, rfl⟩ := decode_eq_ok h
  exact ⟨wellFormed_decodeOpcode op imm a, by rw [encode_decodeOpcode]⟩

/-! ### Length and truncation -/

section
variable {op : Byte} {rest : List Byte}

theorem decode_of_length_le (h : opLength op ≤ rest.length + 1) :
    ∃ imm a, decode (op :: rest) = .ok (decodeOpcode op imm a, rest.drop (opLength op - 1)) := by
  rcases opLength_cases op with hlen | hlen | hlen
  · exact ⟨0, 0, by rw [decode_one hlen, hlen]; rfl⟩
  · match rest, h with
    | [], h => simp [hlen] at h
    | imm :: rest, _ => exact ⟨imm, 0, by rw [decode_two hlen, hlen]; rfl⟩
  · match rest, h with
    | [], h | [_], h => simp [hlen] at h
    | hi :: lo :: rest, _ => exact ⟨0, joinBytes hi lo, by rw [decode_three hlen, hlen]; rfl⟩

theorem decode_truncated (h : rest.length + 1 < opLength op) : decode (op :: rest) = .error (.truncated op) := by
  rcases opLength_cases op with hlen | hlen | hlen
  · omega
  · match rest, h with
    | [], _ => simp only [decode, hlen]
    | imm :: rest, h => simp [hlen] at h
  · match rest, h with
    | [], _ | [_], _ => simp only [decode, hlen]
    | hi :: lo :: rest, h => simp only [hlen, List.length_cons] at h; omega

end

/-- Settles O3: the three lengths, each with the bytes it needs or without them. -/
theorem decoderRejectsOnlyTruncation : Obligations.DecoderRejectsOnlyTruncation := by
  refine fun op rest => ⟨fun h => ?whole, decode_truncated⟩
  obtain ⟨imm, a, hdecode⟩ := decode_of_length_le h
  exact ⟨_, hdecode, length_decodeOpcode op imm a⟩

/-! ### The opcode table -/

/-- One table row covers the opcode, and it has the mnemonic and the length of what the opcode decodes to. -/
def rowAgrees (op : Byte) : Bool :=
  match opcodeTable.filter fun row => row.covers op with
  | [row] => (decodeOpcode op 0 0).mnemonic == row.mnemonic && opLength op == row.format.length op
  | _ => false

theorem exists_row_of_rowAgrees {op : Byte} (h : rowAgrees op = true) :
    ∃ row, opcodeTable.filter (fun row => row.covers op) = [row] ∧
      (decodeOpcode op 0 0).mnemonic = row.mnemonic ∧ opLength op = row.format.length op := by
  unfold rowAgrees at h
  split at h
  · next row hrow => exact ⟨row, hrow, by simpa using h⟩
  · cases h

theorem rowAgrees_all : ∀ op : Byte, rowAgrees op = true := by decide

/-- Settles O4: a check of the 256 opcodes, whose mnemonics do not change with the operands. -/
theorem decoderFollowsOpcodeTable : Obligations.DecoderFollowsOpcodeTable := by
  intro op imm a
  obtain ⟨row, hfilter, hmnemonic, hlen⟩ := exists_row_of_rowAgrees (rowAgrees_all op)
  exact ⟨row, hfilter, (mnemonic_decodeOpcode op imm a).trans hmnemonic, hlen⟩

/-- Settles O5: the decoder evaluated on nine words. -/
theorem sampleWordsDecode : Obligations.SampleWordsDecode := ⟨rfl, rfl, rfl, rfl, rfl, rfl, rfl, rfl, rfl⟩

end Sys2Proof
end

section
/-! PROOFS. The step on the bytes in Memory (30_encoding.md R60, R61, R69): the fetch window is the bytes at pc as far as
Memory goes, so that a step runs the instruction encoded there, or faults at 0x10000 when Memory ends inside it. -/

namespace Sys2Proof.Machine

open Sys2Proof.Spec

/-! ### The fetch window -/

theorem length_window (m : Memory) (k a : Nat) : (m.window k a).length = min k (Config.memSize - a) := by
  induction k generalizing a with
  | zero => simp [Memory.window]
  | succ k ih =>
    by_cases h : a < Config.memSize
    · rw [Memory.window_succ h, List.length_cons, ih]
      omega
    · rw [Memory.window_top (Nat.le_of_not_lt h), List.length_nil]
      omega

/-- A window begins with the bytes that stand in Memory there. -/
theorem window_eq_append {m : Memory} {l : List Byte} {k a : Nat} (hk : l.length ≤ k)
    (htop : a + l.length ≤ Config.memSize) (hbytes : ∀ j (h : j < l.length), m.read (a + j) = l[j]) :
    ∃ rest, m.window k a = l ++ rest := by
  induction l generalizing k a with
  | nil => exact ⟨_, rfl⟩
  | cons v l ih =>
    rw [List.length_cons] at hk htop
    obtain ⟨k, rfl⟩ : ∃ j, k = j + 1 := ⟨k - 1, by omega⟩
    have hhead : m.read a = v := hbytes 0 (Nat.succ_pos _)
    have htail : ∀ j (h : j < l.length), m.read (a + 1 + j) = l[j] := fun j h => by
      rw [Nat.add_assoc, Nat.add_comm 1 j]
      exact hbytes (j + 1) (Nat.succ_lt_succ h)
    obtain ⟨rest, hrest⟩ := ih (k := k) (by omega) (by omega) htail
    exact ⟨rest, by rw [Memory.window_succ (by omega), hhead, hrest]; rfl⟩

theorem fetchWindow_cons {s : State} (h : s.pc < Config.memSize) :
    fetchWindow s = s.mem.read s.pc :: s.mem.window 2 (s.pc + 1) := Memory.window_succ h

theorem length_operand_le (m : Operand) : m.length ≤ 3 := by cases m <;> exact Nat.le_of_ble_eq_true rfl

theorem length_le_maxLength (i : Instr) : i.length ≤ maxLength := by
  cases i with
  | inc m | dec m | shl m | shr m | rol m | ror m | not m | add m | sub m | and m | ior m | xor m | cmp m =>
    exact length_operand_le m
  | _ => exact Nat.le_of_ble_eq_true rfl

theorem length_encode (i : Instr) : (encode i).length = i.length := by
  cases i with
  | inc m | dec m | shl m | shr m | rol m | ror m | not m | add m | sub m | and m | ior m | xor m | cmp m =>
    cases m <;> rfl
  | _ => rfl

/-! ### A step runs what stands at pc -/

theorem complete_eq_mapNext (o : Host.Outcome State Fault Refusal) : complete o = mapNext State.reportOk o := by
  cases o <;> rfl

/-- Settles O7: the fetch answers the decoded instruction, and completing sets the status output. -/
theorem stepRunsDecodedInstruction : Obligations.StepRunsDecodedInstruction := by
  intro s i rest h
  rw [step_of_fetch (fetch_of_decode h), complete_eq_mapNext]
  rfl

/-- Settles O8: the window begins with the encoding, which decodes back. -/
theorem stepRunsEncodedInstruction : Obligations.StepRunsEncodedInstruction := by
  intro s i hwf htop hbytes
  have hlen : (encode i).length ≤ maxLength := by rw [length_encode]; exact length_le_maxLength i
  obtain ⟨rest, hwindow⟩ := window_eq_append hlen htop hbytes
  have hdecode : decode (fetchWindow s) = .ok (i, rest) := by
    rw [fetchWindow, hwindow, encodedInstructionDecodesBack i rest hwf]
  exact stepRunsDecodedInstruction s i rest hdecode

/-- An opcode of length 1 decodes whatever follows it. -/
theorem step_one_byte {s : State} (h : s.pc < Config.memSize) (hlen : opLength (s.mem.read s.pc) = 1) :
    step s = mapNext State.reportOk (exec (decodeOpcode (s.mem.read s.pc) 0 0) { s with pc := s.pc + 1 }) :=
  stepRunsDecodedInstruction s _ _ (by rw [fetchWindow_cons h, decode_one hlen])

/-! ### A fetch past the top -/

theorem step_at_top {s : State} (h : s.pc = 0x10000) : step s = .fault (.outOfBounds 0x10000) := by
  have hwindow : fetchWindow s = [] := Memory.window_top (Nat.le_of_eq h.symm)
  have hreject : decode (fetchWindow s) = .error .noOpcode := by rw [hwindow, decode]
  rw [step_of_fetch_fault (fetch_of_reject hreject), h, max_self]

/-- Settles O9: the window is empty at the top, and below it ends before the operand bytes the opcode asks for. -/
theorem fetchPastTopFaults : Obligations.FetchPastTopFaults := by
  refine fun s => ⟨step_at_top, fun hpc hpast => ?truncated⟩
  have hshort : (s.mem.window 2 (s.pc + 1)).length + 1 < opLength (s.mem.read s.pc) := by
    rw [length_window]
    simp only [Config.memSize]
    omega
  have hreject := decode_truncated hshort
  rw [← fetchWindow_cons (Nat.lt_succ_of_le hpc)] at hreject
  rw [step_of_fetch_fault (fetch_of_reject hreject), max_eq_right (Nat.le_succ_of_le hpc)]

/-! ### Reserved opcodes (40_nop.md R80) -/

section
variable {op : Byte}

theorem opLength_reserved (h : Reserved op) : opLength op = 1 := by
  apply Laws.EncodeLength.reserved_length
  unfold Reserved at h
  omega

theorem decodeOpcode_reserved (h : Reserved op) :
    (decodeOpcode op 0 0).mnemonic = "NOP" ∧ ∀ s, exec (decodeOpcode op 0 0) s = .next s := by
  rcases h with hlow | hgap | hhigh
  · rw [decodeOpcode_nopLow (Nat.lt_succ_of_le hlow)]
    exact ⟨rfl, fun _ => rfl⟩
  · rw [decodeOpcode_nopGap ⟨hgap.1, Nat.lt_succ_of_le hgap.2⟩]
    exact ⟨rfl, fun _ => rfl⟩
  · rw [decodeOpcode_nopHigh hhigh]
    exact ⟨rfl, fun _ => rfl⟩

theorem step_reserved {s : State} (h : s.pc ≤ 0xFFFF) (hop : Reserved (s.mem.read s.pc)) :
    step s = .next { s with pc := s.pc + 1, status := .ok } := by
  obtain ⟨-, hexec⟩ := decodeOpcode_reserved hop
  rw [step_one_byte (Nat.lt_succ_of_le h) (opLength_reserved hop), hexec]
  rfl

end

/-- Settles O23: a reserved opcode has length 1 and decodes to one of the three NOP rows, whose meaning is the state
itself. -/
theorem reservedOpcodesAreNop : Obligations.ReservedOpcodesAreNop := by
  refine ⟨fun s => step_reserved, fun s => step_at_top, fun op rest hop => ?decodes, fun op s => ⟨rfl, rfl, rfl⟩,
    by decide, by decide⟩
  obtain ⟨hnop, hexec⟩ := decodeOpcode_reserved hop
  have hlen := opLength_reserved hop
  exact ⟨_, decode_one hlen, by rw [encode_decodeOpcode, hlen]; rfl, hnop, hexec⟩

/-! ### Fetch coherence (20_memory.md R59) -/

/-- Settles O59: the stored byte is read back at the next fetch, and one byte decodes whatever follows it. -/
theorem storedOpcodeRunsNext : Obligations.StoredOpcodeRunsNext := by
  rintro r s ⟨-, hmem, -⟩ hpc hlen hbytes
  have haddr : (BitVec.ofNat 16 (s.pc + 3)).toNat = s.pc + 3 := Nat.mod_eq_of_lt (Nat.lt_succ_of_le hpc)
  have hstored : (s.mem.write (BitVec.ofNat 16 (s.pc + 3)).toNat (s.reg r)).read (s.pc + 3) = s.reg r := by
    rw [haddr, Memory.read_write_same hmem]
  refine ⟨_, step_str (Nat.le_succ_of_le hpc) hbytes, rfl, ?next⟩
  rw [step_one_byte (Nat.lt_succ_of_le hpc) (by rw [hstored, hlen]), hstored]
  rfl

end Sys2Proof.Machine
end

section
/-! PROOFS. What an execution depends on (10_state.md R21, R26, R31). Replacing all registers at once, where those the
instruction reads keep their values, changes the effect only in the registers it does not write; so does replacing all
flags and the status output. Replacing one register, one flag or the status output is a case of these. -/

namespace Sys2Proof.Machine

open Sys2Proof.Spec

/-! ### Replacing the registers -/

/-- The state with other registers. -/
def State.withRegs (g : Reg → Byte) (s : State) : State := { s with a := g .a, x := g .x, y := g .y, z := g .z }

/-- The registers of `t` where they are listed, else those given. -/
def regsOf (l : List Reg) (t : State) (g : Reg → Byte) (r : Reg) : Byte := if r ∈ l then t.reg r else g r

section
variable (g : Reg → Byte) (s : State)

@[simp] theorem reg_withRegs (r : Reg) : (s.withRegs g).reg r = g r := by cases r <;> rfl

theorem withRegs_reg : s.withRegs s.reg = s := rfl

@[simp] theorem flag_withRegs (f : CondFlag) : (s.withRegs g).flag f = s.flag f := by cases f <;> rfl

@[simp] theorem regsOf_nil (t : State) : regsOf [] t g = g := funext fun _ => if_neg List.not_mem_nil

@[simp] theorem regsOf_setAluFlags (l : List Reg) (r : AluResult) (t : State) :
    regsOf l (setAluFlags r t) g = regsOf l t g := by simp only [funext_iff, regsOf, reg_setAluFlags, implies_true]

@[simp] theorem regsOf_setZN (l : List Reg) (v : Byte) (t : State) :
    regsOf l (setZN v t) g = regsOf l t g := by simp only [funext_iff, regsOf, reg_setZN, implies_true]

theorem setReg_withRegs (r : Reg) (v : Byte) :
    (s.withRegs g).setReg r v = (s.setReg r v).withRegs (regsOf [r] (s.setReg r v) g) := by cases r <;> rfl

theorem pastOperand_withRegs (m : Operand) : pastOperand m (s.withRegs g) = (pastOperand m s).withRegs g := by
  cases m <;> rfl

theorem setZN_withRegs (v : Byte) : setZN v (s.withRegs g) = (setZN v s).withRegs g := rfl

theorem setAluFlags_withRegs (r : AluResult) : setAluFlags r (s.withRegs g) = (setAluFlags r s).withRegs g := by
  rcases r with ⟨v, _ | _, _ | _⟩ <;> rfl

theorem setFlag_withRegs (f : CondFlag) (b : Bool) : (s.withRegs g).setFlag f b = (s.setFlag f b).withRegs g := by
  cases f <;> rfl

theorem branchEffect_withRegs (taken : Bool) (a : Addr) :
    branchEffect taken a (s.withRegs g) = (branchEffect taken a s).withRegs g := by cases taken <;> rfl

variable {g s}

theorem effAddr_withRegs {i : Index} (h : ∀ r ∈ indexReg i, g r = s.reg r) (a : Addr) :
    effAddr a i (s.withRegs g) = effAddr a i s := by
  cases i with
  | none => rfl
  | x => exact congrArg (a.toNat + BitVec.toNat ·) (h .x (List.mem_singleton_self _))
  | y => exact congrArg (a.toNat + BitVec.toNat ·) (h .y (List.mem_singleton_self _))
  | z => exact congrArg (a.toNat + BitVec.toNat ·) (h .z (List.mem_singleton_self _))

theorem operandValue_withRegs {m : Operand} (h : ∀ r ∈ operandReads m, g r = s.reg r) :
    operandValue m (s.withRegs g) = operandValue m s := by
  cases m with
  | reg r => exact (reg_withRegs g s r).trans (h r (List.mem_singleton_self r))
  | mem a i => exact congrArg s.mem.read (effAddr_withRegs h a)

theorem putOperand_withRegs {m : Operand} (h : ∀ r ∈ operandReads m, g r = s.reg r) (v : Byte) :
    putOperand m v (s.withRegs g) = (putOperand m v s).withRegs (regsOf (operandReg m) (putOperand m v s) g) := by
  cases m with
  | reg r => exact setReg_withRegs g s r v
  | mem a i => rw [operandReg, regsOf_nil, putOperand, effAddr_withRegs h]; rfl

theorem operandFault_withRegs (n : Nat) : operandFault n (s.withRegs g) = operandFault n s := rfl

theorem memFault_withRegs {i : Index} (h : ∀ r ∈ indexReg i, g r = s.reg r) (a : Addr) :
    memFault a i (s.withRegs g) = memFault a i s := by
  rw [memFault, memFault, indexFault, indexFault, effAddr_withRegs h, operandFault_withRegs]

theorem modeFault_withRegs {m : Operand} (h : ∀ r ∈ operandReads m, g r = s.reg r) :
    modeFault m (s.withRegs g) = modeFault m s := by
  cases m with
  | reg r => rfl
  | mem a i => exact memFault_withRegs h a

theorem expectedFault_withRegs {i : Instr} (h : ∀ r ∈ regsRead i, g r = s.reg r) :
    expectedFault i (s.withRegs g) = expectedFault i s := by
  cases i with
  | strM a ix => exact memFault_withRegs (fun r hr => h r (List.mem_cons_of_mem _ hr)) a
  | lodM a ix => exact memFault_withRegs h a
  | inc m | dec m | shl m | shr m | rol m | ror m | not m => exact modeFault_withRegs h
  | add m | sub m | and m | ior m | xor m | cmp m =>
    exact modeFault_withRegs fun r hr => h r (List.mem_cons_of_mem _ hr)
  | _ => rfl

theorem unaryEffect_withRegs {m : Operand} (h : ∀ r ∈ operandReads m, g r = s.reg r) (f : Byte → AluResult) :
    unaryEffect f m (s.withRegs g) =
      (unaryEffect f m s).withRegs (regsOf (operandReg m) (unaryEffect f m s) g) := by
  rw [unaryEffect, operandValue_withRegs h, putOperand_withRegs h, setAluFlags_withRegs,
    unaryEffect, regsOf_setAluFlags]

theorem binaryEffect_withRegs {m : Operand} (h : ∀ r ∈ Reg.a :: operandReads m, g r = s.reg r)
    (f : Byte → Byte → AluResult) :
    binaryEffect f m (s.withRegs g) = (binaryEffect f m s).withRegs (regsOf [.a] (binaryEffect f m s) g) := by
  have ha : (s.withRegs g).a = s.a := h .a List.mem_cons_self
  rw [binaryEffect, ha, operandValue_withRegs fun r hr => h r (List.mem_cons_of_mem _ hr), pastOperand_withRegs,
    setReg_withRegs, setAluFlags_withRegs, binaryEffect, regsOf_setAluFlags]

theorem effect_withRegs {i : Instr} (h : ∀ r ∈ regsRead i, g r = s.reg r) :
    effect i (s.withRegs g) = (effect i s).withRegs (regsOf (regsWritten i) (effect i s) g) := by
  cases i with
  | nopLow | nopGap | nopHigh | jmp | cal | rtn => rw [regsWritten, regsOf_nil]; rfl
  | str r a =>
    have hr : (s.withRegs g).reg r = s.reg r := (reg_withRegs g s r).trans (h r (List.mem_singleton_self r))
    rw [effect, hr, putOperand_withRegs (m := .mem a .none) (by simp [operandReads, indexReg])]
    rfl
  | strM a ix =>
    have ha : (s.withRegs g).a = s.a := h .a List.mem_cons_self
    rw [effect, ha, putOperand_withRegs (m := .mem a ix) fun r hr => h r (List.mem_cons_of_mem _ hr)]
    rfl
  | lod r a =>
    rw [effect, pastOperand_withRegs, setReg_withRegs, setZN_withRegs, effect, regsOf_setZN]
    rfl
  | lodM a ix => rw [effect, operandValue_withRegs (m := .mem a ix) h, pastOperand_withRegs, setReg_withRegs]; rfl
  | lodImm r n => exact setReg_withRegs g { s with pc := s.pc + 1 } r n
  | psh r =>
    have hr : (s.withRegs g).reg r = s.reg r := (reg_withRegs g s r).trans (h r (List.mem_singleton_self r))
    rw [effect, hr, regsWritten, regsOf_nil]
    rfl
  | pll r => exact setReg_withRegs g { s with sp := s.sp - 1 } r _
  | trs d r =>
    have hr : (s.withRegs g).reg r = s.reg r := (reg_withRegs g s r).trans (h r (List.mem_singleton_self r))
    rw [effect, hr, setReg_withRegs]
    rfl
  | inc m | dec m | shl m | shr m | rol m | ror m | not m => exact unaryEffect_withRegs h _
  | brc f a | brn f a => rw [effect, flag_withRegs, branchEffect_withRegs, regsWritten, regsOf_nil]; rfl
  | set f | clr f => rw [effect, setFlag_withRegs, regsWritten, regsOf_nil]; rfl
  | add m | sub m | and m | ior m | xor m => exact binaryEffect_withRegs h _
  | cmp m =>
    have ha : (s.withRegs g).a = s.a := h .a List.mem_cons_self
    rw [effect, compareEffect, ha, operandValue_withRegs fun r hr => h r (List.mem_cons_of_mem _ hr),
      pastOperand_withRegs, setAluFlags_withRegs, regsWritten, regsOf_nil]
    rfl

end

/-- One register is replaced by replacing all, the others by their own values. -/
theorem setReg_eq_withRegs (s : State) (r : Reg) (v : Byte) :
    s.setReg r v = s.withRegs fun q => if q = r then v else s.reg q := by cases r <;> rfl

/-- Settles O16: replacing a register that is not read changes the effect in that register alone, if it is not written. -/
theorem onlyListedRegistersMatter : Obligations.OnlyListedRegistersMatter := by
  intro i s r v hr
  have hread : ∀ q ∈ regsRead i, (if q = r then v else s.reg q) = s.reg q := fun q hq =>
    if_neg fun hqr : q = r => hr (hqr ▸ hq)
  rw [setReg_eq_withRegs]
  refine exec_commutes (expectedFault_withRegs hread) ((effect_withRegs hread).trans ?_)
  have hkept : ∀ q, q ∉ regsWritten i → s.reg q = (effect i s).reg q := fun q hq => (reg_effect hq s).symm
  by_cases hw : r ∈ regsWritten i
  · rw [if_pos hw]
    refine (congrArg (State.withRegs · (effect i s)) (funext fun q => ?_)).trans (withRegs_reg (effect i s))
    by_cases hq : q ∈ regsWritten i
    · rw [regsOf, if_pos hq]
    · have hqr : q ≠ r := fun hqr => hq (hqr ▸ hw)
      rw [regsOf, if_neg hq, if_neg hqr, hkept q hq]
  · rw [if_neg hw, setReg_eq_withRegs]
    refine congrArg (State.withRegs · (effect i s)) (funext fun q => ?_)
    by_cases hq : q ∈ regsWritten i
    · have hqr : q ≠ r := fun hqr => hw (hqr ▸ hq)
      rw [regsOf, if_pos hq, if_neg hqr]
    · rw [regsOf, if_neg hq, hkept q hq]

end Sys2Proof.Machine
end

section
/-! PROOFS. What an execution depends on, continued: the flags and the status output (10_state.md R26, R31), replaced all
at once. -/

namespace Sys2Proof.Machine

open Sys2Proof.Spec

/-- The state with other flags and another status output. -/
def State.withFlags (g : CondFlag → Bool) (st : Status) (s : State) : State :=
  { s with zf := g .z, nf := g .n, cf := g .c, vf := g .v, status := st }

/-- The flags of `t` where they are listed, else those given. -/
def flagsOf (l : List CondFlag) (t : State) (g : CondFlag → Bool) (f : CondFlag) : Bool :=
  if f ∈ l then t.flag f else g f

section
variable (g : CondFlag → Bool) (st : Status) (s : State)

@[simp] theorem flag_withFlags (f : CondFlag) : (s.withFlags g st).flag f = g f := by cases f <;> rfl

@[simp] theorem reg_withFlags (r : Reg) : (s.withFlags g st).reg r = s.reg r := by cases r <;> rfl

theorem withFlags_flag : s.withFlags s.flag s.status = s := rfl

@[simp] theorem flagsOf_nil (t : State) : flagsOf [] t g = g := funext fun _ => if_neg List.not_mem_nil

theorem setReg_withFlags (r : Reg) (v : Byte) : (s.withFlags g st).setReg r v = (s.setReg r v).withFlags g st := by
  cases r <;> rfl

theorem pastOperand_withFlags (m : Operand) : pastOperand m (s.withFlags g st) = (pastOperand m s).withFlags g st := by
  cases m <;> rfl

theorem operandValue_withFlags (m : Operand) : operandValue m (s.withFlags g st) = operandValue m s := by
  cases m with
  | reg r => exact reg_withFlags g st s r
  | mem a i => rfl

theorem putOperand_withFlags (m : Operand) (v : Byte) :
    putOperand m v (s.withFlags g st) = (putOperand m v s).withFlags g st := by
  cases m with
  | reg r => exact setReg_withFlags g st s r v
  | mem a i => rfl

theorem branchEffect_withFlags (taken : Bool) (a : Addr) :
    branchEffect taken a (s.withFlags g st) = (branchEffect taken a s).withFlags g st := by cases taken <;> rfl

theorem setZN_withFlags (v : Byte) :
    setZN v (s.withFlags g st) = (setZN v s).withFlags (flagsOf [.z, .n] (setZN v s) g) st := rfl

theorem setFlag_withFlags (f : CondFlag) (b : Bool) :
    (s.withFlags g st).setFlag f b = (s.setFlag f b).withFlags (flagsOf [f] (s.setFlag f b) g) st := by
  cases f <;> rfl

theorem setAluFlags_withFlags (r : AluResult) :
    setAluFlags r (s.withFlags g st) = (setAluFlags r s).withFlags (flagsOf r.written (setAluFlags r s) g) st := by
  rcases r with ⟨v, _ | _, _ | _⟩ <;> rfl

theorem unaryEffect_withFlags (f : Byte → AluResult) (m : Operand) :
    unaryEffect f m (s.withFlags g st) = (unaryEffect f m s).withFlags
      (flagsOf (f (operandValue m s)).written (unaryEffect f m s) g) st := by
  rw [unaryEffect, operandValue_withFlags, putOperand_withFlags, setAluFlags_withFlags]; rfl

theorem binaryEffect_withFlags (f : Byte → Byte → AluResult) (m : Operand) :
    binaryEffect f m (s.withFlags g st) = (binaryEffect f m s).withFlags
      (flagsOf (f s.a (operandValue m s)).written (binaryEffect f m s) g) st := by
  rw [binaryEffect, operandValue_withFlags, pastOperand_withFlags, setReg_withFlags, setAluFlags_withFlags]; rfl

theorem compareEffect_withFlags (f : Byte → Byte → AluResult) (m : Operand) :
    compareEffect f m (s.withFlags g st) = (compareEffect f m s).withFlags
      (flagsOf (f s.a (operandValue m s)).written (compareEffect f m s) g) st := by
  rw [compareEffect, operandValue_withFlags, pastOperand_withFlags, setAluFlags_withFlags]; rfl

/-- No fault depends on a flag or the status output. -/
theorem expectedFault_withFlags (i : Instr) : expectedFault i (s.withFlags g st) = expectedFault i s := rfl

variable {g s}

theorem effect_withFlags {i : Instr} (h : ∀ f ∈ flagsRead i, g f = s.flag f) :
    effect i (s.withFlags g st) = (effect i s).withFlags (flagsOf (flagsWritten i) (effect i s) g) st := by
  cases i with
  | nopLow | nopGap | nopHigh | jmp | cal | rtn => rw [flagsWritten, flagsOf_nil]; rfl
  | str r a => rw [effect, reg_withFlags, putOperand_withFlags, flagsWritten, flagsOf_nil]; rfl
  | strM a ix => rw [effect, putOperand_withFlags, flagsWritten, flagsOf_nil]; rfl
  | lod r a => rw [effect, pastOperand_withFlags, setReg_withFlags, setZN_withFlags]; rfl
  | lodM a ix =>
    rw [effect, operandValue_withFlags, pastOperand_withFlags, setReg_withFlags, flagsWritten, flagsOf_nil]; rfl
  | lodImm r n => rw [flagsWritten, flagsOf_nil]; exact setReg_withFlags g st { s with pc := s.pc + 1 } r n
  | psh r => rw [effect, reg_withFlags, flagsWritten, flagsOf_nil]; rfl
  | pll r => rw [flagsWritten, flagsOf_nil]; exact setReg_withFlags g st { s with sp := s.sp - 1 } r _
  | trs d r => rw [effect, reg_withFlags, setReg_withFlags, flagsWritten, flagsOf_nil]; rfl
  | inc m | dec m | shl m | shr m | rol m | ror m | not m => exact unaryEffect_withFlags g st s _ m
  | brc f a | brn f a =>
    rw [effect, flag_withFlags, h f (List.mem_singleton_self f), branchEffect_withFlags, flagsWritten, flagsOf_nil]; rfl
  | set f | clr f => exact setFlag_withFlags g st s f _
  | add m | sub m | and m | ior m | xor m => exact binaryEffect_withFlags g st s _ m
  | cmp m => exact compareEffect_withFlags g st s _ m

end

/-! ### One flag -/

/-- One flag is replaced by replacing all, the others by their own values. -/
theorem setFlag_eq_withFlags (s : State) (f : CondFlag) (b : Bool) :
    s.setFlag f b = s.withFlags (fun g => if g = f then b else s.flag g) s.status := by cases f <;> rfl

/-- Settles O18: replacing a flag that is not read changes the effect in that flag alone, if it is not written. -/
theorem onlyBranchesReadFlags : Obligations.OnlyBranchesReadFlags := by
  intro i s f b hf
  have hread : ∀ g ∈ flagsRead i, (if g = f then b else s.flag g) = s.flag g := fun g hg =>
    if_neg fun hgf : g = f => hf (hgf ▸ hg)
  rw [setFlag_eq_withFlags]
  refine exec_commutes (expectedFault_withFlags _ _ s i) ((effect_withFlags _ hread).trans ?_)
  have hkept : ∀ g, g ∉ flagsWritten i → s.flag g = (effect i s).flag g := fun g hg => (flag_effect hg s).symm
  rw [← status_effect i s]
  by_cases hw : f ∈ flagsWritten i
  · rw [if_pos hw]
    refine (congrArg (State.withFlags · _ (effect i s)) (funext fun g => ?_)).trans (withFlags_flag (effect i s))
    by_cases hg : g ∈ flagsWritten i
    · rw [flagsOf, if_pos hg]
    · have hgf : g ≠ f := fun hgf => hg (hgf ▸ hw)
      rw [flagsOf, if_neg hg, if_neg hgf, hkept g hg]
  · rw [if_neg hw, setFlag_eq_withFlags]
    refine congrArg (State.withFlags · _ (effect i s)) (funext fun g => ?_)
    by_cases hg : g ∈ flagsWritten i
    · have hgf : g ≠ f := fun hgf => hw (hgf ▸ hg)
      rw [flagsOf, if_pos hg, if_neg hgf]
    · rw [flagsOf, if_neg hg, hkept g hg]

/-! ### The status output -/

/-- An execution passes the status output on. -/
theorem exec_with_status (i : Instr) (s : State) (st : Status) :
    exec i { s with status := st } = mapNext (fun t => { t with status := st }) (exec i s) := by
  have hflags : flagsOf (flagsWritten i) (effect i s) s.flag = (effect i s).flag := funext fun f => by
    by_cases hf : f ∈ flagsWritten i
    · rw [flagsOf, if_pos hf]
    · rw [flagsOf, if_neg hf, flag_effect hf]
  refine exec_commutes (s' := s.withFlags s.flag st) (expectedFault_withFlags _ st s i) ?_
  rw [effect_withFlags st fun _ _ => rfl, hflags]
  rfl

theorem complete_with_status (o : Host.Outcome State Fault Refusal) (st : Status) :
    complete (mapNext (fun t => { t with status := st }) o) = complete o := by cases o <;> rfl

theorem step_with_status (s : State) (st : Status) : step { s with status := st } = step s := by
  have hfetch : fetch { s with status := st } = fetch s := rfl
  cases h : fetch s with
  | error f => rw [step_of_fetch_fault h, step_of_fetch_fault (hfetch.trans h)]
  | ok i =>
    rw [step_of_fetch h, step_of_fetch (hfetch.trans h)]
    exact (congrArg complete (exec_with_status i { s with pc := s.pc + 1 } st)).trans (complete_with_status _ st)

theorem hostCycle_of_next {s t : State} (h : step s = .next t) : hostCycle s = (.status t.status, t) := by
  rw [hostCycle, h]

/-- Settles O14: the fetch does not look at the status output, and an execution passes it on to be overwritten. -/
theorem statusIsOutputOnly : Obligations.StatusIsOutputOnly := by
  refine ⟨step_with_status, fun s t h => ?_⟩
  obtain ⟨i, -, -, ht⟩ := step_eq_next.mp h
  have hok : t.status = .ok := by rw [ht, reportOk_status]
  exact ⟨by rw [hostOp, hostCycle_of_next h, hok], hok, by rw [hok]; rfl, by rw [hok]; rfl⟩

end Sys2Proof.Machine
end

section
/-! PROOFS. The stack bytes at and above sp (10_state.md, unobservable stack bytes). Two runs whose stack buffers agree
below sp raise the same faults and read the same stack bytes; a push writes the same byte to both before sp passes it. -/

namespace Sys2Proof.Machine

open Sys2Proof.Spec

/-- The arrays agree below an index. -/
def AgreeBelow (p : Nat) (k l : Memory) : Prop := ∀ j < p, k.read j = l.read j

section
variable {p q : Nat} {k l : Memory}

theorem AgreeBelow.mono (h : AgreeBelow q k l) (hpq : p ≤ q) : AgreeBelow p k l :=
  fun j hj => h j (Nat.lt_of_lt_of_le hj hpq)

/-- The same byte stored at the index extends the agreement past it. -/
theorem AgreeBelow.write (h : AgreeBelow p k l) (hk : k.wf Config.stackSize = true)
    (hl : l.wf Config.stackSize = true) (v : Byte) : AgreeBelow (p + 1) (k.write p v) (l.write p v) := by
  intro j hj
  rw [Memory.read_write hk, Memory.read_write hl]
  split
  · rfl
  · exact h j (by omega)

end

/-- No fault depends on a stack byte. -/
theorem expectedFault_with_stk (i : Instr) (s : State) (k : Memory) :
    expectedFault i { s with stk := k } = expectedFault i s := rfl

section
variable {s : State} {k : Memory}

/-- The effect of PSH, PLL, CAL and RTN on two stack buffers that agree below sp. -/
theorem stackEffect_agrees {i : Instr} (hi : usesStack i = true) (hs : s.stk.wf Config.stackSize = true)
    (hk : k.wf Config.stackSize = true) (hagree : AgreeBelow s.sp.toNat k s.stk) (hf : expectedFault i s = none) :
    ∃ k', effect i { s with stk := k } = { effect i s with stk := k' } ∧
      AgreeBelow (effect i s).sp.toNat k' (effect i s).stk := by
  cases i with
  | psh r =>
    refine ⟨_, congrArg (fun v => { s with stk := k.write s.sp.toNat v, sp := s.sp + 1 }) (reg_with_stk s k r), ?_⟩
    have hsp : (s.sp + 1).toNat ≤ s.sp.toNat + 1 := by bv_omega
    exact (hagree.write hk hs (s.reg r)).mono hsp
  | pll r =>
    have hsp : s.sp ≠ 0 := fun hsp => by simp [expectedFault, hsp] at hf
    have hread : k.read (s.sp.toNat - 1) = s.stk.read (s.sp.toNat - 1) := hagree _ (by bv_omega)
    refine ⟨k, ?_, ?_⟩
    · rw [effect, hread, effect]; cases r <;> rfl
    · rw [effect, setReg_sp, setReg_stk]
      exact hagree.mono (by bv_omega)
  | cal a =>
    have hk' := Memory.write_wf hk (highByte (returnAddress s)) s.sp.isLt
    have hs' := Memory.write_wf hs (highByte (returnAddress s)) s.sp.isLt
    have hsp : (s.sp + 2).toNat ≤ s.sp.toNat + 1 + 1 := by bv_omega
    exact ⟨_, rfl, ((hagree.write hk hs _).write hk' hs' (lowByte (returnAddress s))).mono hsp⟩
  | rtn op =>
    have hsp : 2 ≤ s.sp.toNat := by
      by_contra hsp
      simp [expectedFault, Nat.le_of_lt_succ (Nat.lt_of_not_le hsp)] at hf
    have hhigh : k.read (s.sp.toNat - 2) = s.stk.read (s.sp.toNat - 2) := hagree _ (by omega)
    have hlow : k.read (s.sp.toNat - 1) = s.stk.read (s.sp.toNat - 1) := hagree _ (by omega)
    refine ⟨k, by rw [effect, hhigh, hlow]; rfl, hagree.mono ?_⟩
    rw [effect, jump_sp]
    bv_omega
  | _ => cases hi

theorem effect_agrees {i : Instr} (hs : s.stk.wf Config.stackSize = true) (hk : k.wf Config.stackSize = true)
    (hagree : AgreeBelow s.sp.toNat k s.stk) (hf : expectedFault i s = none) :
    ∃ k', effect i { s with stk := k } = { effect i s with stk := k' } ∧
      AgreeBelow (effect i s).sp.toNat k' (effect i s).stk := by
  cases hi : usesStack i with
  | true => exact stackEffect_agrees hi hs hk hagree hf
  | false =>
    have hexec := exec_of_no_fault hf
    obtain ⟨hstk, hsp⟩ := stack_eq_of_exec hi hexec
    have hcommutes := exec_withStack k s.sp s hi
    rw [hexec, exec_of_no_fault (show expectedFault i (s.withStack k s.sp) = none from hf)] at hcommutes
    have heffect : effect i (s.withStack k s.sp) = (effect i s).withStack k s.sp := Host.Outcome.next.inj hcommutes
    refine ⟨k, heffect.trans ?_, by rwa [hstk, hsp]⟩
    rw [← hsp]
    rfl

end

/-- Settles O58: the fetch does not read the stack buffer, and the execution gives two that agree below the new sp. -/
theorem stackBytesFromSpOnUnobservable : Obligations.StackBytesFromSpOnUnobservable := by
  rintro s k ⟨-, -, hs⟩ hk hagree
  have hfetch : fetch { s with stk := k } = fetch s := rfl
  cases h : fetch s with
  | error f =>
    rw [step_of_fetch_fault h]
    exact step_of_fetch_fault (hfetch.trans h)
  | ok i =>
    have hstep := step_of_fetch h
    have hstep' := step_of_fetch (hfetch.trans h)
    have hfault' := expectedFault_with_stk i { s with pc := s.pc + 1 } k
    rw [exec_eq] at hstep hstep'
    cases hf : expectedFault i { s with pc := s.pc + 1 } with
    | some f =>
      rw [hf] at hstep
      rw [hstep, hstep', hfault', hf]
      rfl
    | none =>
      rw [hf] at hstep
      obtain ⟨k', heffect, hagree'⟩ := effect_agrees (s := { s with pc := s.pc + 1 }) hs hk hagree hf
      rw [hstep]
      refine ⟨k', ?_, hagree'⟩
      rw [hstep', hfault', hf, heffect]
      rfl

end Sys2Proof.Machine
end

section
/-! PROOFS. Results as numbers: loads and stores (41_load_store.md), the unary and the binary ALU (43_transfer_unary.md,
45_binary_alu.md) and the branches (44_flags_branch.md). An execution without a fault is its effect, the effect of an
ALU template is its result written back with its flags, and each result is a fact about bytes. -/

namespace Sys2Proof.Machine

open Sys2Proof.Spec

/-! ### Flags of a result -/

theorem beq_zero_eq : ∀ v : Byte, (v == 0) = decide (v.toNat = 0) := by decide

theorem bit_seven_eq : ∀ v : Byte, v.getLsbD 7 = decide (128 ≤ v.toNat) := by decide

theorem setZN_eq (v : Byte) (s : State) : setZN v s = withZN v.toNat s := by
  rw [setZN, beq_zero_eq, bit_seven_eq]; rfl

theorem setAluFlags_eq (r : AluResult) (s : State) : setAluFlags r s =
    { withZN r.value.toNat s with cf := r.carry.getD s.cf, vf := r.overflow.getD s.vf } := by
  rw [setAluFlags, setZN_eq]
  rcases r with ⟨v, _ | _, _ | _⟩ <;> rfl

/-! ### Loads and stores -/

theorem setReg_with_pc (s : State) (p : Nat) (r : Reg) (v : Byte) :
    State.setReg { s with pc := p } r v = { s.setReg r v with pc := p } := by cases r <;> rfl

/-- Settles O25: without a fault, both are the write or read at the effective address. -/
theorem accumulatorMemoryMoves : Obligations.AccumulatorMemoryMoves := fun a i s hpc hea =>
  have hf : memFault a i s = none := memFault_inside hpc (Nat.succ_le_succ hea)
  ⟨exec_of_no_fault (i := .strM a i) hf, exec_of_no_fault (i := .lodM a i) hf⟩

/-- Settles O26: each of the fifteen has the fault of its memory operand. -/
theorem indexedAddressNeverWraps : Obligations.IndexedAddressNeverWraps := by
  intro a i s hpc hea ins hins
  have hmem : expectedFault ins s = memFault a i s := by fin_cases hins <;> rfl
  have houtside : ¬ effAddr a i s + 1 ≤ Config.memSize := Nat.not_le.mpr (Nat.succ_lt_succ hea)
  rw [exec_eq, hmem, memFault_index_outside hpc houtside]
  rfl

/-- Settles O27: the address operand lies in Memory, so that only the operand fetch could fault. -/
theorem lodLoadsAndSetsZN : Obligations.LodLoadsAndSetsZN := by
  intro r a s hpc
  rw [exec_of_no_fault (i := .lod r a) (operandFault_inside hpc), effect, setZN_eq, pastOperand, setReg_with_pc]

/-- Settles O28: the operand fetch is one byte. -/
theorem lodImmediateLoads : Obligations.LodImmediateLoads := by
  refine fun r n s => ⟨fun hpc => ?_, fun hpc => ?_⟩
  · rw [exec_of_no_fault (i := .lodImm r n) (operandFault_inside hpc), effect, setReg_with_pc]
  · have houtside : ¬ s.pc + 1 ≤ Config.memSize := by rw [hpc]; decide
    rw [exec_eq, expectedFault, operandFault_outside houtside, hpc]
    rfl

/-! ### Unary results -/

section
variable {f : Byte → AluResult} {m : Operand} {s : State} {n : Nat}

theorem unaryEffect_of_carry {c : Bool} (hn : n < 256)
    (h : f (operandValue m s) = ⟨BitVec.ofNat 8 n, some c, none⟩) :
    unaryEffect f m s = { withZN n (putOperand m (BitVec.ofNat 8 n) s) with cf := c } := by
  rw [unaryEffect, h, setAluFlags_eq, BitVec.toNat_ofNat, Nat.mod_eq_of_lt hn]; rfl

theorem unaryEffect_of_no_carry (hn : n < 256) (h : f (operandValue m s) = ⟨BitVec.ofNat 8 n, none, none⟩) :
    unaryEffect f m s = withZN n (putOperand m (BitVec.ofNat 8 n) s) := by
  rw [unaryEffect, h, setAluFlags_eq, BitVec.toNat_ofNat, Nat.mod_eq_of_lt hn]; rfl

end

theorem incResult_eq : ∀ v : Byte,
    incResult v = ⟨BitVec.ofNat 8 ((v.toNat + 1) % 256), some (decide (v.toNat = 255)), none⟩ := by decide

theorem decResult_eq : ∀ v : Byte,
    decResult v = ⟨BitVec.ofNat 8 ((v.toNat + 255) % 256), some (decide (v.toNat = 0)), none⟩ := by decide

theorem shlResult_eq : ∀ v : Byte,
    shlResult v = ⟨BitVec.ofNat 8 (2 * v.toNat % 256), some (decide (128 ≤ v.toNat)), none⟩ := by decide

theorem shrResult_eq : ∀ v : Byte,
    shrResult v = ⟨BitVec.ofNat 8 (v.toNat / 2), some (decide (v.toNat % 2 = 1)), none⟩ := by decide

theorem rolResult_eq : ∀ v : Byte, rolResult v =
    ⟨BitVec.ofNat 8 (2 * v.toNat % 256 + v.toNat / 128), some (decide (128 ≤ v.toNat)), none⟩ := by decide

theorem rorResult_eq : ∀ v : Byte, rorResult v =
    ⟨BitVec.ofNat 8 (v.toNat / 2 + 128 * (v.toNat % 2)), some (decide (v.toNat % 2 = 1)), none⟩ := by decide

theorem notResult_eq : ∀ v : Byte, notResult v = ⟨BitVec.ofNat 8 (255 - v.toNat), none, none⟩ := by decide

/-- Settles O37, by the results as numbers. -/
theorem incDecResults : Obligations.IncDecResults := by
  intro m s h
  have hf := modeFault_of_readable h
  refine ⟨?_, ?_⟩
  · rw [exec_of_no_fault (i := .inc m) hf, effect, unaryEffect_of_carry (by omega) (incResult_eq _)]
  · rw [exec_of_no_fault (i := .dec m) hf, effect, unaryEffect_of_carry (by omega) (decResult_eq _)]

/-- Settles O38, by the results as numbers. -/
theorem shiftResults : Obligations.ShiftResults := by
  intro m s h
  have hf := modeFault_of_readable h
  refine ⟨?_, ?_⟩
  · rw [exec_of_no_fault (i := .shl m) hf, effect, unaryEffect_of_carry (by omega) (shlResult_eq _)]
  · rw [exec_of_no_fault (i := .shr m) hf, effect, unaryEffect_of_carry (by omega) (shrResult_eq _)]

/-- Settles O39, by the results as numbers. -/
theorem rotateAndNotResults : Obligations.RotateAndNotResults := by
  intro m s h
  have hf := modeFault_of_readable h
  refine ⟨?_, ?_, ?_⟩
  · rw [exec_of_no_fault (i := .rol m) hf, effect, unaryEffect_of_carry (by omega) (rolResult_eq _)]
  · rw [exec_of_no_fault (i := .ror m) hf, effect, unaryEffect_of_carry (by omega) (rorResult_eq _)]
  · rw [exec_of_no_fault (i := .not m) hf, effect, unaryEffect_of_no_carry (by omega) (notResult_eq _)]

/-! ### Repeated rotates -/

theorem reg_unaryEffect_reg (f : Byte → AluResult) (r : Reg) (s : State) :
    (unaryEffect f (.reg r) s).reg r = (f (s.reg r)).value :=
  (reg_setAluFlags _ _ r).trans (reg_setReg_same s r _)

/-- A unary instruction on a register, executed `n` times, applies its result function `n` times. -/
theorem execTimes_unary_reg {i : Instr} {f : Byte → AluResult} {r : Reg}
    (hi : ∀ s, exec i s = .next (unaryEffect f (.reg r) s)) (n : Nat) (s : State) :
    ∃ t, execTimes n i s = .next t ∧ t.reg r = (fun v => (f v).value)^[n] (s.reg r) := by
  induction n generalizing s with
  | zero => exact ⟨s, rfl, rfl⟩
  | succ n ih =>
    obtain ⟨t, ht, hreg⟩ := ih (unaryEffect f (.reg r) s)
    refine ⟨t, ?_, ?_⟩
    · rw [execTimes, hi]; exact ht
    · rw [hreg, reg_unaryEffect_reg, Function.iterate_succ_apply]

theorem rol_eight : ∀ v : Byte, (fun v => (rolResult v).value)^[8] v = v := by decide

theorem ror_eight : ∀ v : Byte, (fun v => (rorResult v).value)^[8] v = v := by decide

/-- Settles O40: eight turns by one place are a whole turn of a byte. -/
theorem eightRotatesRestore : Obligations.EightRotatesRestore := by
  intro r s
  obtain ⟨t, ht, hrol⟩ := execTimes_unary_reg (i := .rol (.reg r)) (fun _ => rfl) 8 s
  obtain ⟨u, hu, hror⟩ := execTimes_unary_reg (i := .ror (.reg r)) (fun _ => rfl) 8 s
  exact ⟨⟨t, ht, hrol.trans (rol_eight _)⟩, ⟨u, hu, hror.trans (ror_eight _)⟩⟩

/-! ### Branches -/

theorem branchEffect_eq (taken : Bool) (a : Addr) (s : State) :
    branchEffect taken a s = { s with pc := if taken then a.toNat else s.pc + 2 } := by cases taken <;> rfl

theorem exec_brc {s : State} (hpc : s.pc + 2 ≤ 0x10000) (f : CondFlag) (a : Addr) :
    exec (.brc f a) s = .next { s with pc := if s.flag f then a.toNat else s.pc + 2 } := by
  rw [exec_of_no_fault (i := .brc f a) (operandFault_inside hpc), effect, branchEffect_eq]

theorem exec_brn {s : State} (hpc : s.pc + 2 ≤ 0x10000) (f : CondFlag) (a : Addr) :
    exec (.brn f a) s = .next { s with pc := if s.flag f then s.pc + 2 else a.toNat } := by
  rw [exec_of_no_fault (i := .brn f a) (operandFault_inside hpc), effect, branchEffect_eq]
  cases s.flag f <;> rfl

/-- A two-byte operand fetch that runs past the top, from a pc the core can have. -/
theorem exec_operand_past_top {i : Instr} {s : State} (hi : expectedFault i s = operandFault 2 s)
    (hpc : s.pc ≤ 0x10000) (hpast : s.pc + 2 > 0x10000) : exec i s = .fault (.outOfBounds 0x10000) := by
  rw [exec_eq, hi, operandFault_outside (Nat.not_le.mpr hpast), max_eq_right hpc]
  rfl

/-- Settles O41: the fault of a branch is its operand fetch, whatever the flag is. -/
theorem branchesFollowFlag : Obligations.BranchesFollowFlag := fun f a _ =>
  ⟨fun hpc => ⟨exec_brc hpc f a, exec_brn hpc f a⟩,
    fun hpc hpast => ⟨exec_operand_past_top rfl hpc hpast, exec_operand_past_top rfl hpc hpast⟩⟩

/-! ### Binary results -/

theorem addResult_eq (a b : Byte) : addResult a b =
    ⟨BitVec.ofNat 8 ((a.toNat + b.toNat) % 256), some (decide (255 < a.toNat + b.toNat)),
      some (((a ^^^ BitVec.ofNat 8 ((a.toNat + b.toNat) % 256)) &&&
        (b ^^^ BitVec.ofNat 8 ((a.toNat + b.toNat) % 256)) &&& 0x80) != 0)⟩ := by
  have hsum : BitVec.ofNat 8 ((a.toNat + b.toNat) % 256) = BitVec.ofNat 8 (a.toNat + b.toNat) :=
    BitVec.eq_of_toNat_eq (by simp only [BitVec.toNat_ofNat]; omega)
  rw [hsum]
  rfl

theorem subResult_eq (a b : Byte) : subResult a b =
    ⟨BitVec.ofNat 8 ((a.toNat + 256 - b.toNat) % 256), some (decide (a.toNat < b.toNat)),
      some (((a ^^^ b) &&& (a ^^^ BitVec.ofNat 8 ((a.toNat + 256 - b.toNat) % 256)) &&& 0x80) != 0)⟩ := by
  have hb := b.isLt
  have hdiff : BitVec.ofNat 8 ((a.toNat + 256 - b.toNat) % 256) = BitVec.ofInt 8 ((a.toNat : Int) - b.toNat) :=
    BitVec.eq_of_toNat_eq (by simp only [BitVec.toNat_ofNat, BitVec.toNat_ofInt]; omega)
  have hborrow : decide (a.toNat < b.toNat) = decide ((a.toNat : Int) - b.toNat < 0) :=
    decide_eq_decide.mpr (by omega)
  rw [hdiff, hborrow]
  rfl

section
variable {g : Byte → Byte → AluResult} {m : Operand} {s : State} {n : Nat}

theorem binaryEffect_eq (g : Byte → Byte → AluResult) (m : Operand) (s : State) : binaryEffect g m s =
    { withZN (g s.a (operandValue m s)).value.toNat (pastOperand m s) with
      a := (g s.a (operandValue m s)).value
      cf := (g s.a (operandValue m s)).carry.getD (pastOperand m s).cf
      vf := (g s.a (operandValue m s)).overflow.getD (pastOperand m s).vf } := by
  rw [binaryEffect, setAluFlags_eq]; rfl

theorem binaryEffect_of_flags {c v : Bool} (hn : n < 256)
    (h : g s.a (operandValue m s) = ⟨BitVec.ofNat 8 n, some c, some v⟩) :
    binaryEffect g m s = { withZN n (pastOperand m s) with a := BitVec.ofNat 8 n, cf := c, vf := v } := by
  rw [binaryEffect_eq, h, BitVec.toNat_ofNat, Nat.mod_eq_of_lt hn]; rfl

theorem compareEffect_of_carry {c : Bool} (hn : n < 256)
    (h : g s.a (operandValue m s) = ⟨BitVec.ofNat 8 n, some c, none⟩) :
    compareEffect g m s = { withZN n (pastOperand m s) with cf := c } := by
  rw [compareEffect, h, setAluFlags_eq, BitVec.toNat_ofNat, Nat.mod_eq_of_lt hn]; rfl

end

/-- Settles O46: the three results say nothing about C and V. -/
theorem logicResults : Obligations.LogicResults := by
  intro m s h
  have hf := modeFault_of_readable h
  refine ⟨?_, ?_, ?_⟩
  · rw [exec_of_no_fault (i := .and m) hf, effect, binaryEffect_eq]; rfl
  · rw [exec_of_no_fault (i := .ior m) hf, effect, binaryEffect_eq]; rfl
  · rw [exec_of_no_fault (i := .xor m) hf, effect, binaryEffect_eq]; rfl

theorem exec_add {m : Operand} {s : State} (h : OperandReadable m s) :
    exec (.add m) s = .next (binaryEffect addResult m s) := exec_of_no_fault (i := .add m) (modeFault_of_readable h)

theorem exec_sub {m : Operand} {s : State} (h : OperandReadable m s) :
    exec (.sub m) s = .next (binaryEffect subResult m s) := exec_of_no_fault (i := .sub m) (modeFault_of_readable h)

theorem exec_cmp {m : Operand} {s : State} (h : OperandReadable m s) :
    exec (.cmp m) s = .next (compareEffect cmpResult m s) := exec_of_no_fault (i := .cmp m) (modeFault_of_readable h)

theorem cmpResult_eq (a b : Byte) : cmpResult a b =
    ⟨BitVec.ofNat 8 ((a.toNat + 256 - b.toNat) % 256), some (decide (a.toNat < b.toNat)), none⟩ := by
  rw [cmpResult, subResult_eq]

/-! ### Compare and branch -/

theorem difference_eq_zero {a b : Byte} : (a.toNat + 256 - b.toNat) % 256 = 0 ↔ a = b := by
  have ha := a.isLt
  have hb := b.isLt
  rw [← BitVec.toNat_inj]
  omega

/-- The two conditions of the spec, in a state whose flags say below and equal. -/
theorem brc_after_compare {t : State} {a b : Byte} (hc : t.flag .c = decide (a.toNat < b.toNat))
    (hz : t.flag .z = decide ((a.toNat + 256 - b.toNat) % 256 = 0)) (tgt : Addr) (hpc : t.pc + 2 ≤ 0x10000) :
    exec (.brc .c tgt) t = .next { t with pc := if a.toNat < b.toNat then tgt.toNat else t.pc + 2 } ∧
    exec (.brc .z tgt) t = .next { t with pc := if a = b then tgt.toNat else t.pc + 2 } := by
  rw [exec_brc hpc, exec_brc hpc, hc, hz]
  simp only [decide_eq_true_eq, difference_eq_zero, and_self]

/-- Settles O43: SUB and CMP write the same C and Z. -/
theorem compareThenBranch : Obligations.CompareThenBranch := by
  intro m tgt s h ins hins
  rcases List.mem_pair.mp hins with rfl | rfl
  · refine ⟨_, exec_cmp h, brc_after_compare ?_ ?_ tgt⟩ <;>
      rw [compareEffect_of_carry (by omega) (cmpResult_eq _ _)] <;> rfl
  · refine ⟨_, exec_sub h, brc_after_compare ?_ ?_ tgt⟩ <;>
      rw [binaryEffect_of_flags (by omega) (subResult_eq _ _)] <;> rfl

/-! ### Signed overflow -/

theorem sign_bit_ne_zero : ∀ v : Byte, (v &&& 0x80 != 0) = v.msb := by decide

theorem msb_eq : ∀ v : Byte, v.msb = decide (128 ≤ v.toNat) := by decide

theorem toInt_eq (v : Byte) : v.toInt = if 128 ≤ v.toNat then (v.toNat : Int) - 256 else v.toNat := by
  rw [BitVec.toInt_eq_toNat_cond]
  split_ifs <;> omega

/-- Both operands of a sum differ in sign from the result exactly when the signed sum leaves its range. -/
theorem add_overflow_iff (a b : Byte) {r : Byte} (hr : r.toNat = (a.toNat + b.toNat) % 256) :
    (((a ^^^ r) &&& (b ^^^ r) &&& 0x80) != 0) = true ↔ r.toInt ≠ a.toInt + b.toInt := by
  have ha := a.isLt
  have hb := b.isLt
  rw [sign_bit_ne_zero, BitVec.msb_and, BitVec.msb_xor, BitVec.msb_xor]
  simp only [msb_eq, toInt_eq, Bool.and_eq_true, bne_iff_ne, ne_eq, decide_eq_decide]
  split_ifs <;> omega

/-- The operands of a difference differ in sign, and so do the first and the result, exactly when the signed difference
leaves its range. -/
theorem sub_overflow_iff (a b : Byte) {r : Byte} (hr : r.toNat = (a.toNat + 256 - b.toNat) % 256) :
    (((a ^^^ b) &&& (a ^^^ r) &&& 0x80) != 0) = true ↔ r.toInt ≠ a.toInt - b.toInt := by
  have ha := a.isLt
  have hb := b.isLt
  rw [sign_bit_ne_zero, BitVec.msb_and, BitVec.msb_xor, BitVec.msb_xor]
  simp only [msb_eq, toInt_eq, Bool.and_eq_true, bne_iff_ne, ne_eq, decide_eq_decide]
  split_ifs <;> omega

/-- Settles O48: V is a statement about the sign bits of the operands and the result. -/
theorem overflowIsSignedOverflow : Obligations.OverflowIsSignedOverflow := by
  intro m s h
  refine ⟨⟨_, exec_add h, ?_⟩, ⟨_, exec_sub h, ?_⟩⟩
  · rw [binaryEffect_of_flags (by omega) (addResult_eq _ _)]
    exact add_overflow_iff _ _ (by rw [BitVec.toNat_ofNat]; omega)
  · rw [binaryEffect_of_flags (by omega) (subResult_eq _ _)]
    exact sub_overflow_iff _ _ (by rw [BitVec.toNat_ofNat]; omega)

end Sys2Proof.Machine

namespace Sys2Proof.Alu

open Machine

/-- Settles O44, by the sum as a number. -/
theorem addResult : Obligations.AddResult := fun _ _ h =>
  (exec_add h).trans (congrArg Host.Outcome.next (binaryEffect_of_flags (Nat.mod_lt _ (by decide)) (addResult_eq _ _)))

/-- Settles O45, by the difference as a number. -/
theorem subResult : Obligations.SubResult := fun _ _ h =>
  (exec_sub h).trans (congrArg Host.Outcome.next (binaryEffect_of_flags (Nat.mod_lt _ (by decide)) (subResult_eq _ _)))

/-- Settles O47: the difference is that of SUB, and nothing but Z, N and C is written. -/
theorem cmpResult : Obligations.CmpResult := fun _ _ h =>
  (exec_cmp h).trans (congrArg Host.Outcome.next (compareEffect_of_carry (Nat.mod_lt _ (by decide)) (cmpResult_eq _ _)))

end Sys2Proof.Alu
end

section
/-! PROOFS. JMP and CAL, and the stack moves in sequence (42_stack_control.md R92 to R95; 20_memory.md R46 to R50). Each
execution is its effect; a byte pulled is the byte last pushed at that index. -/

namespace Sys2Proof.Machine

open Sys2Proof.Spec

/-! ### JMP -/

theorem exec_jmp {s : State} (hpc : s.pc + 2 ≤ 0x10000) (a : Addr) :
    exec (.jmp a) s = .next { s with pc := a.toNat } := exec_of_no_fault (i := .jmp a) (operandFault_inside hpc)

/-- The three bytes of a self-loop lie below the top, since all of them are in the window. -/
theorem pc_le_of_atSelfLoop {s : State} (h : fetchWindow s = encode (.jmp (BitVec.ofNat 16 s.pc))) :
    s.pc + 3 ≤ Config.memSize := by
  have hlen : min 3 (Config.memSize - s.pc) = 3 := by
    rw [← length_window s.mem 3 s.pc]
    exact congrArg List.length h
  omega

/-- Settles O31: the bytes of a self-loop decode to the jump to p0. -/
theorem jmpSetsPc : Obligations.JmpSetsPc := by
  refine ⟨fun hi lo => decode_three rfl, fun a s hpc => exec_jmp hpc a,
    fun a s hpc hpast => exec_operand_past_top rfl hpc hpast, fun s h => ?selfLoop⟩
  have hwindow : fetchWindow s = encode (.jmp (BitVec.ofNat 16 s.pc)) := eq_of_beq h
  have hpc := pc_le_of_atSelfLoop hwindow
  have hdecode : decode (fetchWindow s) = .ok (.jmp (BitVec.ofNat 16 s.pc), []) := by
    rw [hwindow, ← encodedInstructionDecodesBack _ [] rfl, List.append_nil]
  have htarget : (BitVec.ofNat 16 s.pc).toNat = s.pc := Nat.mod_eq_of_lt (by simp only [Config.memSize] at hpc; omega)
  rw [stepRunsDecodedInstruction s _ _ hdecode, exec_jmp hpc, htarget]
  rfl

/-! ### CAL -/

theorem ofNat_toNat_add (p : Byte) (n : Nat) : BitVec.ofNat 8 (p.toNat + n) = p + BitVec.ofNat 8 n := by
  rw [BitVec.ofNat_add, BitVec.ofNat_toNat, BitVec.setWidth_eq]

theorem exec_cal_inside {s : State} (hpc : s.pc + 2 ≤ 0x10000) (hsp : s.sp.toNat ≤ 253) (a : Addr) :
    exec (.cal a) s = .next (effect (.cal a) s) := by
  apply exec_of_no_fault
  rw [expectedFault, operandFault_inside hpc, if_neg (by omega)]
  rfl

/-- The return address is p0 + 2, and its bytes are those of that number. -/
theorem returnAddress_toNat {s : State} {p0 : Nat} (hp0 : s.pc = p0 + 1) (h : p0 ≤ 0xFFFD) :
    (returnAddress s).toNat = p0 + 2 := by
  rw [returnAddress, hp0, BitVec.toNat_ofNat]
  omega

theorem highByte_eq (a : Addr) : highByte a = BitVec.ofNat 8 (a.toNat / 256) := by
  rw [← highByte_toNat, BitVec.ofNat_toNat, BitVec.setWidth_eq]

theorem lowByte_eq (a : Addr) : lowByte a = BitVec.ofNat 8 (a.toNat % 256) := by
  rw [← lowByte_toNat, BitVec.ofNat_toNat, BitVec.setWidth_eq]

/-- Settles O32: the two faults of CAL in their order, and the return address as two bytes. -/
theorem calPushesReturnAddress : Obligations.CalPushesReturnAddress := by
  intro a s p0 hp0 hp
  refine ⟨fun hlow hsp => ?pushes, fun hhigh => ?operand, fun hlow hsp => ?overflow⟩
  case pushes =>
    rw [exec_cal_inside (by omega) hsp, effect, highByte_eq, lowByte_eq, returnAddress_toNat hp0 hlow, ofNat_toNat_add]
    rfl
  case operand =>
    have houtside : ¬ s.pc + 2 ≤ Config.memSize := by simp only [Config.memSize]; omega
    rw [exec_eq, expectedFault, operandFault_outside houtside, Option.some_or, max_eq_right (by rw [hp0]; exact Nat.succ_le_succ hp)]
    rfl
  case overflow =>
    rw [exec_eq, expectedFault, operandFault_inside (by simp only [Config.memSize]; omega), if_pos hsp]
    rfl

/-! ### CAL then RTN -/

section
variable {s : State} (a : Addr)

theorem effect_cal_sp (hsp : s.sp.toNat ≤ 253) : (effect (.cal a) s).sp.toNat = s.sp.toNat + 2 := by
  rw [effect, jump_sp]
  bv_omega

theorem effect_cal_stk (hs : s.stk.wf Config.stackSize = true) :
    (effect (.cal a) s).stk.read s.sp.toNat = highByte (returnAddress s) ∧
    (effect (.cal a) s).stk.read (s.sp.toNat + 1) = lowByte (returnAddress s) := by
  have hs' := Memory.write_wf hs (highByte (returnAddress s)) s.sp.isLt
  refine ⟨?_, Memory.read_write_same hs' _ _⟩
  exact (Memory.read_write_other hs' _ (by omega)).trans (Memory.read_write_same hs _ _)

end

/-- RTN takes pc and sp from the two bytes below sp. -/
theorem exec_rtn_of_bytes {u : State} {p : Byte} {ret : Addr} (hsp : u.sp.toNat = p.toNat + 2)
    (hhigh : u.stk.read p.toNat = highByte ret) (hlow : u.stk.read (p.toNat + 1) = lowByte ret) (op : Byte) :
    ∃ w, exec (.rtn op) u = .next w ∧ w.pc = ret.toNat ∧ w.sp = p := by
  refine ⟨_, exec_rtn_inside (by omega) op, ?_, ?_⟩
  · have hsub : u.sp.toNat - 2 = p.toNat ∧ u.sp.toNat - 1 = p.toNat + 1 := by omega
    simp only [hsub, hhigh, hlow]
    rw [← joinBytes_toNat, joinBytes_high_low]
  · exact BitVec.eq_of_toNat_eq (by simp only [BitVec.toNat_ofNat]; omega)

/-- Settles O34: RTN joins the two bytes CAL pushed. -/
theorem calThenRtnResumes : Obligations.CalThenRtnResumes := by
  rintro a op s p0 ⟨-, -, hs⟩ hp0 hp hsp
  refine ⟨_, exec_cal_inside (by omega) hsp a, fun u husp hustk => ?_⟩
  obtain ⟨hhigh, hlow⟩ := effect_cal_stk a hs
  rw [← returnAddress_toNat hp0 hp]
  refine exec_rtn_of_bytes ?_ ?_ ?_ op
  · rw [husp, effect_cal_sp a hsp]
  · rw [hustk _ (Nat.le_refl _) (Nat.le_succ _), hhigh]
  · rw [hustk _ (Nat.le_succ _) (Nat.le_refl _), hlow]

/-! ### Stack moves of either width, in sequence -/

/-- A push that fits: sp as a number, the byte at the old sp, and the other bytes. -/
theorem exec_psh_facts {s : State} (hs : s.stk.wf Config.stackSize = true) (hsp : s.sp.toNat ≤ 254) (r : Reg) :
    ∃ t, exec (.psh r) s = .next t ∧ t.sp.toNat = s.sp.toNat + 1 ∧ (∀ q, t.reg q = s.reg q) ∧
      t.stk.wf Config.stackSize = true ∧ t.stk.read s.sp.toNat = s.reg r ∧
      ∀ k, k ≠ s.sp.toNat → t.stk.read k = s.stk.read k := by
  refine ⟨_, exec_psh_inside (Nat.succ_le_succ hsp) r, ?_, fun q => ?_, Memory.write_wf hs _ s.sp.isLt,
    Memory.read_write_same hs _ _, fun k hk => Memory.read_write_other hs _ hk⟩
  · simp only [BitVec.toNat_ofNat]; omega
  · cases q <;> rfl

/-- A pull that fits: sp as a number, the byte below the old sp in its register, the other registers and the stack
buffer. -/
theorem exec_pll_facts {s : State} (hsp : 1 ≤ s.sp.toNat) (r : Reg) :
    ∃ t, exec (.pll r) s = .next t ∧ t.sp.toNat = s.sp.toNat - 1 ∧ t.reg r = s.stk.read (s.sp.toNat - 1) ∧
      (∀ q, q ≠ r → t.reg q = s.reg q) ∧ t.stk = s.stk := by
  refine ⟨_, exec_pll_inside hsp r, ?_, ?_, fun q hq => ?_, setReg_stk _ _ _⟩
  · simp only [BitVec.toNat_ofNat]; omega
  · rw [reg_with_sp, reg_setReg_same]
  · rw [reg_with_sp, reg_setReg_other _ _ hq]

/-- Settles O35: what is pulled is what was pushed at the same index, whatever the widths. -/
theorem stackHasNoWidthTags : Obligations.StackHasNoWidthTags := by
  rintro s ⟨-, -, hs⟩
  refine ⟨fun r q hsp => ?pshPll, fun r q op hsp => ?pshPshRtn, fun a hsp hpc => ?calPllPll⟩
  case pshPll =>
    obtain ⟨t, ht, htsp, -, -, hread, -⟩ := exec_psh_facts hs hsp r
    obtain ⟨u, hu, husp, hureg, -, -⟩ := exec_pll_facts (s := t) (by omega) q
    rw [htsp, Nat.add_sub_cancel] at husp hureg
    exact ⟨t, u, ht, hu, hureg.trans hread, BitVec.eq_of_toNat_eq husp⟩
  case pshPshRtn =>
    obtain ⟨t, ht, htsp, htreg, hts, hthigh, -⟩ := exec_psh_facts hs (by omega) r
    obtain ⟨u, hu, husp, -, -, hulow, hukeep⟩ := exec_psh_facts hts (by omega) q
    rw [htsp] at husp hulow hukeep
    have hret := joinBytes_toNat (s.reg r) (s.reg q)
    have hhigh : u.stk.read s.sp.toNat = highByte (joinBytes (s.reg r) (s.reg q)) := by
      rw [highByte_joinBytes, hukeep _ (by omega), hthigh]
    have hlow : u.stk.read (s.sp.toNat + 1) = lowByte (joinBytes (s.reg r) (s.reg q)) := by
      rw [lowByte_joinBytes, hulow, htreg]
    obtain ⟨w, hw, hwpc, hwsp⟩ := exec_rtn_of_bytes husp hhigh hlow op
    exact ⟨t, u, w, ht, hu, hw, hwpc.trans hret, hwsp⟩
  case calPllPll =>
    have htsp := effect_cal_sp (s := s) a hsp
    obtain ⟨hthigh, htlow⟩ := effect_cal_stk a hs
    obtain ⟨u, hu, husp, hux, -, hustk⟩ := exec_pll_facts (s := effect (.cal a) s) (by omega) .x
    obtain ⟨w, hw, hwsp, hwy, hwkeep, -⟩ := exec_pll_facts (s := u) (by omega) .y
    have hx : w.x = lowByte (returnAddress s) :=
      calc w.x = u.x := hwkeep .x (by decide)
        _ = (effect (.cal a) s).stk.read (s.sp.toNat + 1) := by rw [← reg_x, hux, htsp]; rfl
        _ = lowByte (returnAddress s) := htlow
    have hy : w.y = highByte (returnAddress s) :=
      calc w.y = u.stk.read (u.sp.toNat - 1) := hwy
        _ = (effect (.cal a) s).stk.read s.sp.toNat := by rw [hustk, husp, htsp]; rfl
        _ = highByte (returnAddress s) := hthigh
    have hreturn : (returnAddress s).toNat = s.pc + 1 := Nat.mod_eq_of_lt (by omega)
    refine ⟨_, u, w, exec_cal_inside hpc hsp a, hu, hw, ?_, BitVec.eq_of_toNat_eq (by omega)⟩
    rw [hx, hy, ← joinBytes_toNat, joinBytes_high_low, hreturn]

end Sys2Proof.Machine
end

section
/-! PROOFS. The host interface (60_exceptions.md R130 to R146), reset and boot (70_reset_and_hazards.md R150 to R153). -/

namespace Sys2Proof.Machine

open Sys2Proof.Spec

/-! ### CYCLE -/

theorem hostCycle_of_fault {s : State} {f : Fault} (h : step s = .fault f) :
    hostOp .cycle s = (.status (.fault f s.pc), s.reportFault f) := by
  rw [hostOp, hostCycle, h]; rfl

/-- Settles O49: the status output takes no part in a step, so that the reported state faults again in the same way. -/
theorem faultingCycleOnlyReports : Obligations.FaultingCycleOnlyReports := by
  intro s f h
  have hcycle := hostCycle_of_fault h
  have hagain : step (s.reportFault f) = .fault f := (step_with_status s _).trans h
  refine ⟨hcycle, ?_, ?_⟩
  · rw [hcycle, hostCycle_of_fault hagain]
    rfl
  · rw [hcycle]
    refine ⟨rfl, rfl, rfl, rfl, ?_, ?_, ?_⟩
    · rintro addr rfl
      exact ⟨rfl, rfl⟩
    · rintro sp rfl
      exact ⟨rfl, rfl⟩
    · rintro sp rfl
      exact ⟨rfl, rfl⟩

/-! ### REACHED_END, INSPECT, PEEK, LOAD, RESET -/

theorem hostReachedEnd_at_top {s : State} (h : Config.memSize ≤ s.pc) :
    hostOp .reachedEnd s = (.bool true, { s with pc := 0, status := .ok }) := if_pos h

theorem hostReachedEnd_below {s : State} (h : ¬ Config.memSize ≤ s.pc) :
    hostOp .reachedEnd s = (.bool false, { s with status := .ok }) := if_neg h

/-- Settles O50: after either answer pc is below the top. -/
theorem reachedEndWrapsOnce : Obligations.ReachedEndWrapsOnce := by
  refine fun s => ⟨fun h => hostReachedEnd_at_top (Nat.le_of_eq h.symm), fun h => hostReachedEnd_below (Nat.not_le.mpr h),
    ?_⟩
  by_cases h : Config.memSize ≤ s.pc
  · rw [hostReachedEnd_at_top h]; rfl
  · rw [hostReachedEnd_below h, hostReachedEnd_below (s := { s with status := .ok }) h]

theorem packed_getLsbD : ∀ v c n z : Bool, ∀ p : BitVec 4,
    p = BitVec.ofBool v ++ BitVec.ofBool c ++ BitVec.ofBool n ++ BitVec.ofBool z →
      p.getLsbD 0 = z ∧ p.getLsbD 1 = n ∧ p.getLsbD 2 = c ∧ p.getLsbD 3 = v := by decide

theorem flagsPacked_getLsbD (s : State) (f : CondFlag) : s.flagsPacked.getLsbD (flagNumber f) = s.flag f := by
  obtain ⟨hz, hn, hc, hv⟩ := packed_getLsbD s.vf s.cf s.nf s.zf s.flagsPacked rfl
  cases f with
  | z => exact hz
  | n => exact hn
  | c => exact hc
  | v => exact hv

/-- Settles O51: sp is a byte, so that it is within the stack buffer. -/
theorem inspectAndPeekReadOnly : Obligations.InspectAndPeekReadOnly := fun s =>
  ⟨⟨s.snapshot, rfl, rfl, rfl, rfl, rfl, rfl, rfl, decide_eq_true s.sp.isLt, flagsPacked_getLsbD s⟩,
    fun _ => rfl, fun _ => rfl⟩

/-- Settles O52: LOAD is one write to Memory, which the next fetch reads. -/
theorem loadWritesOneByte : Obligations.LoadWritesOneByte := by
  intro addr v s hs
  obtain ⟨-, hmem, -⟩ := id hs
  have hloaded := Memory.read_write_same hmem addr.toNat v
  refine ⟨hostLoad addr v s, rfl, inv_hostLoad hs addr v, hloaded, fun b hb => Memory.read_write_other hmem v hb, rfl,
    fun hpc hv => ?_⟩
  have hop : (hostLoad addr v s).mem.read (hostLoad addr v s).pc = v := (congrArg _ hpc).trans hloaded
  exact step_reserved (s := hostLoad addr v s) (hpc ▸ Nat.le_of_lt_succ addr.isLt) (by rwa [hop])

/-- Settles O53: RESET is the construction state around the two arrays. -/
theorem resetClearsAllButMemory : Obligations.ResetClearsAllButMemory := fun s =>
  ⟨hostReset s, rfl, fun r => by cases r <;> rfl, fun f => by cases f <;> rfl, rfl, rfl, rfl, rfl, rfl, rfl⟩

/-- Settles O54: the construction state is written out, and an array that lists nothing reads as 0x00. -/
theorem constructionState : Obligations.ConstructionState :=
  ⟨fun r => by cases r <;> rfl, fun f => by cases f <;> rfl, rfl, rfl, rfl, fun _ => rfl, fun _ => rfl⟩

/-! ### Boot -/

theorem loadOps_cons (base : Nat) (v : Byte) (bytes : List Byte) :
    loadOps base (v :: bytes) = .load (BitVec.ofNat 16 base) v :: loadOps (base + 1) bytes := by
  simp only [loadOps, List.mapIdx_cons, Nat.add_zero, Nat.add_comm, Nat.add_left_comm]

/-- A list of LOAD operations stores its bytes one after the other. -/
theorem hostRun_loadOps {bytes : List Byte} {base : Nat} (h : base + bytes.length ≤ 0x10000) {s : State}
    (hs : s.status = .ok) : (hostRun (loadOps base bytes) s).2 = { s with mem := s.mem.writeBytes base bytes } := by
  induction bytes generalizing base s with
  | nil => rfl
  | cons v bytes ih =>
    rw [List.length_cons] at h
    have haddr : (BitVec.ofNat 16 base).toNat = base := Nat.mod_eq_of_lt (by omega)
    have hload : hostLoad (BitVec.ofNat 16 base) v s = { s with mem := s.mem.write base v } := by
      rw [hostLoad, haddr, State.reportOk, ← hs]
    rw [loadOps_cons]
    calc (hostRun (loadOps (base + 1) bytes) (hostLoad (BitVec.ofNat 16 base) v s)).2
        = (hostRun (loadOps (base + 1) bytes) { s with mem := s.mem.write base v }).2 := by rw [hload]
      _ = { s with mem := (s.mem.write base v).writeBytes (base + 1) bytes } := ih (by omega) hs

/-- Bytes stored one after the other read back, and every other byte is as before. -/
theorem read_writeBytes {size : Nat} {bytes : List Byte} {m : Memory} {base : Nat} (hm : m.wf size = true)
    (h : base + bytes.length ≤ size) (k : Nat) :
    (m.writeBytes base bytes).read k =
      if base ≤ k ∧ k < base + bytes.length then bytes.getD (k - base) 0 else m.read k := by
  induction bytes generalizing m base with
  | nil => rw [if_neg (by rw [List.length_nil]; omega)]; rfl
  | cons v bytes ih =>
    rw [List.length_cons] at h
    rw [Memory.writeBytes, ih (Memory.write_wf hm v (by omega)) (by omega), Memory.read_write hm, List.length_cons]
    by_cases hk : k = base
    · rw [if_neg (by omega), if_pos hk, if_pos (by omega), hk, Nat.sub_self, List.getD_cons_zero]
    · rw [if_neg hk]
      by_cases hin : base + 1 ≤ k ∧ k < base + 1 + bytes.length
      · have hsub : k - base = (k - (base + 1)) + 1 := by omega
        rw [if_pos hin, if_pos (by omega), hsub, List.getD_cons_succ]
      · rw [if_neg hin, if_neg (by omega)]

/-- Settles O55: boot is the construction state with the image stored from 0 up. -/
theorem bootLoadsImage : Obligations.BootLoadsImage := by
  intro image hlen
  have hboot : boot image = { State.reset with mem := Memory.writeBytes [] 0 image } :=
    hostRun_loadOps (base := 0) (by omega) rfl
  refine ⟨fun k => ?_, by rw [hboot]⟩
  rw [hboot]
  refine (read_writeBytes (Memory.nil_wf 0x10000) (by omega) k).trans ?_
  split
  · rw [Nat.sub_zero]
  · next h => rw [List.getD_eq_default _ _ (by omega)]; rfl

/-! ### Several cores -/

/-- Settles O57: an operation modifies one entry of the list of cores. -/
theorem coresShareNothing : Obligations.CoresShareNothing := fun _ _ _ _ =>
  ⟨fun hjk => List.getElem?_modify_ne _ _ (Ne.symm hjk), List.getElem?_modify_eq _ _ _⟩

end Sys2Proof.Machine
end

section
/-! PROOFS. The assembly text (30_encoding.md R73 to R77): the disassembler's text of an instruction is one line; its lexical
units are a mnemonic and the units of its operands; the assembler reads each of them back, numbers by their digits. -/

namespace Sys2Proof.Machine

open Sys2Proof.Spec

/-! ### Digits and names -/

theorem digitValue_hexDigit_lt : ∀ n < 16, digitValue 16 (hexDigit n) = some n := by decide

theorem hexDigit_mod (n : Nat) : hexDigit (n % 16) = hexDigit n := by rw [hexDigit, hexDigit, Nat.mod_mod]

theorem digitsValue_hexDigit (acc n : Nat) (cs : List Char) :
    digitsValue 16 acc (hexDigit n :: cs) = digitsValue 16 (acc * 16 + n % 16) cs := by
  rw [← hexDigit_mod, digitsValue, digitValue_hexDigit_lt _ (Nat.mod_lt n (by decide))]; rfl

theorem hexAddr_toList (a : Addr) : (hexAddr a).toList = ['$', hexDigit (a.toNat / 0x1000), hexDigit (a.toNat / 0x100),
    hexDigit (a.toNat / 0x10), hexDigit a.toNat] := String.toList_ofList

theorem hexByte_toList (v : Byte) : (hexByte v).toList = ['$', hexDigit (v.toNat / 16), hexDigit v.toNat] :=
  String.toList_ofList

theorem parseNumber_hexAddr (a : Addr) : parseNumber (hexAddr a).toList = some a.toNat := by
  have ha := a.isLt
  rw [hexAddr_toList, parseNumber, digitsValue_hexDigit, digitsValue_hexDigit, digitsValue_hexDigit,
    digitsValue_hexDigit, digitsValue]
  · congr 1
    omega
  · simp

theorem parseNumber_hexByte (v : Byte) : parseNumber (hexByte v).toList = some v.toNat := by
  have hv := v.isLt
  rw [hexByte_toList, parseNumber, digitsValue_hexDigit, digitsValue_hexDigit, digitsValue]
  · congr 1
    omega
  · simp

theorem parseAddr_hexAddr (env : Option Labels) (a : Addr) : parseAddr env (hexAddr a).toList = some a := by
  unfold parseAddr
  rw [parseNumber_hexAddr]
  exact (if_pos a.isLt).trans (by rw [BitVec.ofNat_toNat, BitVec.setWidth_eq])

theorem parseByte_hexByte (v : Byte) : parseByte (hexByte v).toList = some v := by
  rw [parseByte, parseNumber_hexByte, Option.bind_some, if_pos v.isLt, BitVec.ofNat_toNat, BitVec.setWidth_eq]

theorem parseReg_regText (r : Reg) : parseReg (regText r).toList = some r := by cases r <;> rfl

theorem parseReg_hexAddr (a : Addr) : parseReg (hexAddr a).toList = none := by rw [hexAddr_toList]; rfl

theorem parseFlag_flagText (f : CondFlag) : parseFlag (flagText f).toList = some f := by cases f <;> rfl

/-! ### Lexical units -/

/-- A character that belongs to a word: no white space, no comment and no punctuation. -/
def isWordChar (c : Char) : Bool := c != ';' && !c.isWhitespace && c != ',' && c != ':' && c != '#'

/-- A word of a line. -/
def isWord (w : List Char) : Bool := !w.isEmpty && w.all isWordChar

theorem tokenize_wordChar {c : Char} (h : isWordChar c = true) (p cs : List Char) :
    tokenize p (c :: cs) = tokenize (c :: p) cs := by
  simp only [isWordChar, Bool.and_eq_true, bne_iff_ne, ne_eq, Bool.not_eq_true'] at h
  obtain ⟨⟨⟨⟨hsemi, hspace⟩, hcomma⟩, hcolon⟩, hhash⟩ := h
  rw [tokenize, if_neg hsemi, hspace, if_neg Bool.false_ne_true, if_neg hcomma, if_neg hcolon, if_neg hhash]

theorem tokenize_append {w : List Char} (h : w.all isWordChar = true) (p cs : List Char) :
    tokenize p (w ++ cs) = tokenize (w.reverse ++ p) cs := by
  induction w generalizing p with
  | nil => rfl
  | cons c w ih =>
    obtain ⟨hc, hw⟩ : isWordChar c = true ∧ w.all isWordChar = true := by simpa using h
    rw [List.cons_append, tokenize_wordChar hc, ih hw, List.reverse_cons, List.append_assoc]; rfl

theorem closeWord_reverse {w : List Char} (h : isWord w = true) (ts : List Token) :
    closeWord (w.reverse ++ []) ts = .word w :: ts := by
  have hne : w.reverse ≠ [] := by simp only [isWord, Bool.and_eq_true] at h; simpa using h.1
  rw [List.append_nil, closeWord, if_neg hne, List.reverse_reverse]

section
variable {t u : String} {w : List Char}

theorem tokenize_word (h : isWord t.toList = true) : tokenize [] t.toList = [.word t.toList] := by
  have hchars : t.toList.all isWordChar = true := by simp only [isWord, Bool.and_eq_true] at h; exact h.2
  rw [← List.append_nil t.toList, tokenize_append hchars, tokenize, closeWord_reverse h, List.append_nil]

theorem tokenize_word_space (h : isWord w = true) (cs : List Char) :
    tokenize [] (w ++ ' ' :: cs) = .word w :: tokenize [] cs := by
  have hchars : w.all isWordChar = true := by simp only [isWord, Bool.and_eq_true] at h; exact h.2
  rw [tokenize_append hchars]
  exact closeWord_reverse h _

theorem tokenize_word_comma (h : isWord w = true) (cs : List Char) :
    tokenize [] (w ++ ',' :: ' ' :: cs) = .word w :: .comma :: tokenize [] cs := by
  have hchars : w.all isWordChar = true := by simp only [isWord, Bool.and_eq_true] at h; exact h.2
  rw [tokenize_append hchars]
  exact closeWord_reverse h _

/-- A mnemonic and the text of its operands. -/
theorem tokenize_mnemonic (ht : t.toList = w ++ [' ']) (hw : isWord w = true) (u : String) :
    tokenize [] (t ++ u).toList = .word w :: tokenize [] u.toList := by
  rw [String.toList_append, ht, List.append_assoc]
  exact tokenize_word_space hw _

/-- An operand and the text of those after it. -/
theorem tokenize_comma (h : isWord t.toList = true) (u : String) :
    tokenize [] (t ++ (", " ++ u)).toList = .word t.toList :: .comma :: tokenize [] u.toList := by
  rw [String.toList_append, String.toList_append]
  exact tokenize_word_comma h _

end

theorem hexDigit_isWordChar (n : Nat) : isWordChar (hexDigit n) = true := by
  have hlt : ∀ k < 16, isWordChar (hexDigit k) = true := by decide
  rw [← hexDigit_mod]
  exact hlt _ (Nat.mod_lt n (by decide))

theorem isWord_hexAddr (a : Addr) : isWord (hexAddr a).toList = true := by
  rw [hexAddr_toList]
  simp only [isWord, List.all_cons, hexDigit_isWordChar]
  rfl

theorem isWord_hexByte (v : Byte) : isWord (hexByte v).toList = true := by
  rw [hexByte_toList]
  simp only [isWord, List.all_cons, hexDigit_isWordChar]
  rfl

theorem isWord_regText (r : Reg) : isWord (regText r).toList = true := by cases r <;> rfl

theorem isWord_flagText (f : CondFlag) : isWord (flagText f).toList = true := by cases f <;> rfl

/-! ### The lexical units of an instruction -/

/-- The units of `$a` or `$a, i`. -/
def memTokens (a : Addr) : Index → List Token
  | .none => [.word (hexAddr a).toList]
  | .x => [.word (hexAddr a).toList, .comma, .word "X".toList]
  | .y => [.word (hexAddr a).toList, .comma, .word "Y".toList]
  | .z => [.word (hexAddr a).toList, .comma, .word "Z".toList]

/-- The units of a mode operand. -/
def operandTokens : Operand → List Token
  | .reg r => [.word (regText r).toList]
  | .mem a i => memTokens a i

/-- The units of an instruction's text. -/
def instrTokens : Instr → List Token
  | .nopLow _ => [.word "NOP".toList]
  | .nopGap _ => [.word "NOP".toList]
  | .nopHigh _ => [.word "NOP".toList]
  | .str r a => [.word "STR".toList, .word (regText r).toList, .comma, .word (hexAddr a).toList]
  | .strM a i => .word "STR.M".toList :: memTokens a i
  | .lod r a => [.word "LOD".toList, .word (regText r).toList, .comma, .word (hexAddr a).toList]
  | .lodM a i => .word "LOD.M".toList :: memTokens a i
  | .lodImm r n => [.word "LOD".toList, .word (regText r).toList, .comma, .hash, .word (hexByte n).toList]
  | .psh r => [.word "PSH".toList, .word (regText r).toList]
  | .pll r => [.word "PLL".toList, .word (regText r).toList]
  | .jmp a => [.word "JMP".toList, .word (hexAddr a).toList]
  | .cal a => [.word "CAL".toList, .word (hexAddr a).toList]
  | .rtn _ => [.word "RTN".toList]
  | .trs d s => [.word "TRS".toList, .word (regText d).toList, .comma, .word (regText s).toList]
  | .inc m => .word "INC".toList :: operandTokens m
  | .dec m => .word "DEC".toList :: operandTokens m
  | .shl m => .word "SHL".toList :: operandTokens m
  | .shr m => .word "SHR".toList :: operandTokens m
  | .rol m => .word "ROL".toList :: operandTokens m
  | .ror m => .word "ROR".toList :: operandTokens m
  | .not m => .word "NOT".toList :: operandTokens m
  | .brc f a => [.word "BRC".toList, .word (flagText f).toList, .comma, .word (hexAddr a).toList]
  | .brn f a => [.word "BRN".toList, .word (flagText f).toList, .comma, .word (hexAddr a).toList]
  | .set f => [.word "SET".toList, .word (flagText f).toList]
  | .clr f => [.word "CLR".toList, .word (flagText f).toList]
  | .add m => .word "ADD".toList :: operandTokens m
  | .sub m => .word "SUB".toList :: operandTokens m
  | .and m => .word "AND".toList :: operandTokens m
  | .ior m => .word "IOR".toList :: operandTokens m
  | .xor m => .word "XOR".toList :: operandTokens m
  | .cmp m => .word "CMP".toList :: operandTokens m

theorem tokenize_memText (a : Addr) (i : Index) : tokenize [] (memText a i).toList = memTokens a i := by
  cases i with
  | none => exact tokenize_word (isWord_hexAddr a)
  | x =>
    have hx : ", X" = ", " ++ "X" := by decide
    rw [memText, hx, tokenize_comma (isWord_hexAddr a), tokenize_word rfl, memTokens]
  | y =>
    have hy : ", Y" = ", " ++ "Y" := by decide
    rw [memText, hy, tokenize_comma (isWord_hexAddr a), tokenize_word rfl, memTokens]
  | z =>
    have hz : ", Z" = ", " ++ "Z" := by decide
    rw [memText, hz, tokenize_comma (isWord_hexAddr a), tokenize_word rfl, memTokens]

theorem tokenize_operandText (m : Operand) : tokenize [] (operandText m).toList = operandTokens m := by
  cases m with
  | reg r => exact tokenize_word (isWord_regText r)
  | mem a i => exact tokenize_memText a i

/-- The comment after a reserved opcode's NOP is no part of its units. -/
theorem tokenize_nopText (op : Byte) : tokenize [] (nopText op).toList = [.word "NOP".toList] := by
  unfold nopText
  split
  · exact tokenize_word rfl
  · rw [String.toList_append]; rfl

/-- A mnemonic, a first operand, and one after it. -/
theorem tokenize_two {t u v : String} {w : List Char} (ht : t.toList = w ++ [' ']) (hw : isWord w = true)
    (hu : isWord u.toList = true) (hv : isWord v.toList = true) :
    tokenize [] (t ++ u ++ ", " ++ v).toList = [.word w, .word u.toList, .comma, .word v.toList] := by
  rw [String.append_assoc, String.append_assoc, tokenize_mnemonic ht hw, tokenize_comma hu, tokenize_word hv]

theorem tokenize_disassemble (i : Instr) : tokenize [] (disassemble i).toList = instrTokens i := by
  cases i with
  | nopLow op | nopGap op | nopHigh op => exact tokenize_nopText op
  | rtn op => exact tokenize_word (t := "RTN") rfl
  | str r a | lod r a => exact tokenize_two rfl rfl (isWord_regText r) (isWord_hexAddr a)
  | trs d s => exact tokenize_two rfl rfl (isWord_regText d) (isWord_regText s)
  | brc f a | brn f a => exact tokenize_two rfl rfl (isWord_flagText f) (isWord_hexAddr a)
  | lodImm r n =>
    have hlit : ", #" = ", " ++ "#" := by decide
    have hhash : ", #" ++ hexByte n = ", " ++ ("#" ++ hexByte n) := by rw [hlit, String.append_assoc]
    have htail : tokenize [] ("#" ++ hexByte n).toList = [.hash, .word (hexByte n).toList] := by
      rw [String.toList_append]
      exact congrArg (Token.hash :: ·) (tokenize_word (isWord_hexByte n))
    rw [disassemble, String.append_assoc, String.append_assoc, hhash, tokenize_mnemonic (w := "LOD".toList) rfl rfl,
      tokenize_comma (isWord_regText r), htail, instrTokens]
  | strM a i | lodM a i => exact (tokenize_mnemonic rfl rfl _).trans (congrArg _ (tokenize_memText a i))
  | psh r | pll r => exact (tokenize_mnemonic rfl rfl _).trans (congrArg _ (tokenize_word (isWord_regText r)))
  | jmp a | cal a => exact (tokenize_mnemonic rfl rfl _).trans (congrArg _ (tokenize_word (isWord_hexAddr a)))
  | set f | clr f => exact (tokenize_mnemonic rfl rfl _).trans (congrArg _ (tokenize_word (isWord_flagText f)))
  | inc m | dec m | shl m | shr m | rol m | ror m | not m | add m | sub m | and m | ior m | xor m | cmp m =>
    exact (tokenize_mnemonic rfl rfl _).trans (congrArg _ (tokenize_operandText m))

/-! ### Parsing the units -/

section
variable (env : Option Labels)

theorem parseMem_memTokens (a : Addr) (i : Index) : parseMem env (memTokens a i) = some (a, i) := by
  cases i with
  | none => rw [memTokens, parseMem, parseAddr_hexAddr]; rfl
  | x | y | z => rw [memTokens, parseMem, parseAddr_hexAddr]; rfl

theorem parseOperand_operandTokens (m : Operand) : parseOperand env (operandTokens m) = some m := by
  cases m with
  | reg r => simp only [operandTokens, parseOperand, parseReg_regText]
  | mem a i =>
    cases i with
    | none =>
      simp only [operandTokens, memTokens, parseOperand, parseReg_hexAddr, parseAddr_hexAddr, Option.map_some]
    | x => exact congrArg (Option.map _) (parseMem_memTokens env a .x)
    | y => exact congrArg (Option.map _) (parseMem_memTokens env a .y)
    | z => exact congrArg (Option.map _) (parseMem_memTokens env a .z)

/-- Two parts of an instruction, each parsed. -/
theorem some_of_two {α β : Type} {x : Option α} {y : Option β} {v : α} {w : β} (f : α → β → Instr) (hx : x = some v)
    (hy : y = some w) : (do return f (← x) (← y)) = some (f v w) := by
  rw [hx, hy]; rfl

/-- A line whose units after the mnemonic parse to an instruction emits its bytes. -/
theorem lineEffect_of_parse {w : List Char} {ts : List Token} {i : Instr}
    (hline : lineEffect env (.word w :: ts) = (parseInstr env w ts).map fun i => .emit (encode i))
    (hparse : parseInstr env w ts = some i) : lineEffect env (.word w :: ts) = some (.emit (encode i)) := by
  rw [hline, hparse, Option.map_some]

theorem lineEffect_instrTokens (i : Instr) :
    lineEffect env (instrTokens i) = some (.emit (encode (canonical i))) := by
  cases i with
  | nopLow | nopGap | nopHigh | rtn => rfl
  | str r a =>
    exact lineEffect_of_parse env rfl (some_of_two Instr.str (parseReg_regText r) (parseAddr_hexAddr env a))
  | lod r a =>
    exact lineEffect_of_parse env rfl (some_of_two Instr.lod (parseReg_regText r) (parseAddr_hexAddr env a))
  | lodImm r n =>
    exact lineEffect_of_parse env rfl (some_of_two Instr.lodImm (parseReg_regText r) (parseByte_hexByte n))
  | trs d s =>
    exact lineEffect_of_parse env rfl (some_of_two Instr.trs (parseReg_regText d) (parseReg_regText s))
  | brc f a =>
    exact lineEffect_of_parse env rfl (some_of_two Instr.brc (parseFlag_flagText f) (parseAddr_hexAddr env a))
  | brn f a =>
    exact lineEffect_of_parse env rfl (some_of_two Instr.brn (parseFlag_flagText f) (parseAddr_hexAddr env a))
  | strM a i | lodM a i =>
    exact lineEffect_of_parse env rfl (congrArg (Option.bind · _) (parseMem_memTokens env a i))
  | psh r | pll r => exact lineEffect_of_parse env rfl (congrArg (Option.bind · _) (parseReg_regText r))
  | jmp a | cal a => exact lineEffect_of_parse env rfl (congrArg (Option.bind · _) (parseAddr_hexAddr env a))
  | set f | clr f => exact lineEffect_of_parse env rfl (congrArg (Option.map _) (parseFlag_flagText f))
  | inc m | dec m | shl m | shr m | rol m | ror m | not m | add m | sub m | and m | ior m | xor m | cmp m =>
    exact lineEffect_of_parse env rfl (congrArg (Option.map _) (parseOperand_operandTokens env m))

end

/-! ### A text of one line -/

/-- No part of the text ends a line. -/
def OneLine (t : String) : Prop := '\n' ∉ t.toList

theorem oneLine_append {t u : String} : OneLine (t ++ u) ↔ OneLine t ∧ OneLine u := by
  simp only [OneLine, String.toList_append, List.mem_append, not_or]

theorem oneLine_of_isWord {t : String} (h : isWord t.toList = true) : OneLine t := by
  intro hmem
  simp only [isWord, Bool.and_eq_true, List.all_eq_true] at h
  exact absurd (h.2 _ hmem) (by decide)

theorem splitLines_oneLine {cs : List Char} (h : '\n' ∉ cs) (l : List Char) :
    splitLines l cs = [l.reverse ++ cs] := by
  induction cs generalizing l with
  | nil => rw [splitLines, List.append_nil]
  | cons c cs ih =>
    have hc : c ≠ '\n' := (List.ne_of_not_mem_cons h).symm
    rw [splitLines, if_neg hc, ih (List.not_mem_of_not_mem_cons h), List.reverse_cons, List.append_assoc]; rfl

/-- A single line that defines no label and emits bytes is assembled at address 0. -/
theorem assemble_oneLine {t : String} {w : List Char} {ts : List Token} {bytes : List Byte} (ht : OneLine t)
    (htokens : tokenize [] t.toList = .word w :: ts) (hlabel : ∀ rest, ts ≠ .colon :: rest)
    (hline : ∀ env, lineEffect env (.word w :: ts) = some (.emit bytes)) (hlen : bytes.length ≤ 3) :
    assemble t = some (cellsAt 0 bytes) := by
  have hfits : bytes.length ≤ 65536 := by omega
  have hpass : ∀ env, assemblePass env [.word w :: ts] 0 [] = some ([], cellsAt 0 bytes) := by
    intro env
    cases ts with
    | nil => simp [assemblePass, hline, hfits]
    | cons tok ts =>
      cases tok with
      | colon => exact absurd rfl (hlabel ts)
      | word v | comma | hash => simp [assemblePass, hline, hfits]
  rw [assemble, splitLines_oneLine ht, List.map_singleton, List.reverse_nil, List.nil_append, htokens, hpass]
  exact congrArg (Option.bind · _) (hpass _)

theorem oneLine_hexAddr (a : Addr) : OneLine (hexAddr a) := oneLine_of_isWord (isWord_hexAddr a)

theorem oneLine_regText (r : Reg) : OneLine (regText r) := oneLine_of_isWord (isWord_regText r)

theorem oneLine_flagText (f : CondFlag) : OneLine (flagText f) := oneLine_of_isWord (isWord_flagText f)

theorem oneLine_memText (a : Addr) (i : Index) : OneLine (memText a i) := by
  cases i with
  | none => exact oneLine_hexAddr a
  | x | y | z => exact oneLine_append.mpr ⟨oneLine_hexAddr a, by unfold OneLine; decide⟩

theorem oneLine_operandText (m : Operand) : OneLine (operandText m) := by
  cases m with
  | reg r => exact oneLine_regText r
  | mem a i => exact oneLine_memText a i

theorem oneLine_nopText (op : Byte) : OneLine (nopText op) := by
  unfold nopText
  split
  · unfold OneLine; decide
  · exact oneLine_append.mpr ⟨by unfold OneLine; decide, oneLine_of_isWord (isWord_hexByte op)⟩

/-- A mnemonic, a first operand and one after it stand on one line. -/
theorem oneLine_two {t u sep v : String} (ht : '\n' ∉ t.toList) (hu : OneLine u) (hsep : '\n' ∉ sep.toList)
    (hv : OneLine v) : OneLine (t ++ u ++ sep ++ v) :=
  oneLine_append.mpr ⟨oneLine_append.mpr ⟨oneLine_append.mpr ⟨ht, hu⟩, hsep⟩, hv⟩

theorem oneLine_disassemble (i : Instr) : OneLine (disassemble i) := by
  cases i with
  | nopLow op | nopGap op | nopHigh op => exact oneLine_nopText op
  | rtn op => exact oneLine_of_isWord (t := "RTN") rfl
  | str r a | lod r a => exact oneLine_two (by decide) (oneLine_regText r) (by decide) (oneLine_hexAddr a)
  | trs d s => exact oneLine_two (by decide) (oneLine_regText d) (by decide) (oneLine_regText s)
  | brc f a | brn f a => exact oneLine_two (by decide) (oneLine_flagText f) (by decide) (oneLine_hexAddr a)
  | lodImm r n =>
    exact oneLine_two (by decide) (oneLine_regText r) (by decide) (oneLine_of_isWord (isWord_hexByte n))
  | strM a i | lodM a i => exact oneLine_append.mpr ⟨by unfold OneLine; decide, oneLine_memText a i⟩
  | psh r | pll r => exact oneLine_append.mpr ⟨by unfold OneLine; decide, oneLine_regText r⟩
  | jmp a | cal a => exact oneLine_append.mpr ⟨by unfold OneLine; decide, oneLine_hexAddr a⟩
  | set f | clr f => exact oneLine_append.mpr ⟨by unfold OneLine; decide, oneLine_flagText f⟩
  | inc m | dec m | shl m | shr m | rol m | ror m | not m | add m | sub m | and m | ior m | xor m | cmp m =>
    exact oneLine_append.mpr ⟨by unfold OneLine; decide, oneLine_operandText m⟩

theorem memTokens_ne_colon (a : Addr) (i : Index) (rest : List Token) : memTokens a i ≠ .colon :: rest := by
  cases i <;> exact nofun

theorem operandTokens_ne_colon (m : Operand) (rest : List Token) : operandTokens m ≠ .colon :: rest := by
  cases m with
  | reg r => exact nofun
  | mem a i => exact memTokens_ne_colon a i rest

/-- The units begin with the mnemonic, which is no label. -/
theorem instrTokens_eq_cons (i : Instr) :
    ∃ w ts, instrTokens i = .word w :: ts ∧ ∀ rest, ts ≠ .colon :: rest := by
  cases i with
  | strM a i | lodM a i => exact ⟨_, _, rfl, memTokens_ne_colon a i⟩
  | inc m | dec m | shl m | shr m | rol m | ror m | not m | add m | sub m | and m | ior m | xor m | cmp m =>
    exact ⟨_, _, rfl, operandTokens_ne_colon m⟩
  | _ => exact ⟨_, _, rfl, nofun⟩

/-- Settles O6: the units of the text parse to the instruction whose bytes the assembler emits. -/
theorem disassembledTextAssemblesBack : Obligations.DisassembledTextAssemblesBack := by
  intro i _
  obtain ⟨w, ts, htokens, hlabel⟩ := instrTokens_eq_cons i
  have hlen : (encode (canonical i)).length ≤ 3 := by rw [length_encode]; exact length_le_maxLength _
  exact assemble_oneLine (oneLine_disassemble i) ((tokenize_disassemble i).trans htokens) hlabel
    (fun env => htokens ▸ lineEffect_instrTokens env i) hlen

end Sys2Proof.Machine
end
